-- ==== Sys2Proof/Word.lean ====
section
/-! DEFINITION. The core's data types: bytes of the stream, 11-bit channel values, time samples, motor sides and
directions (spec 00_scope.md R10, R12, R13; 20_memory.md R47). -/

namespace Sys2Proof

/-- One byte of the transport's stream (R12: an 8-bit unsigned value). -/
abbrev Byte := BitVec 8

/-- One channel value (R12: an 11-bit unsigned value, 0 to 2047). -/
abbrev Chan := BitVec 11

/-- The ChannelSet: 16 channels (R10, R21). -/
abbrev ChannelSet := Vector Chan 16

/-- The payload of an RC-channels frame: 22 bytes (R10, R65). -/
abbrev Payload := Vector Byte 22

/-- A time sample in abstract time units (R13: an integer; it never wraps). -/
abbrev Time := Int

/-- The two motors (R47). -/
inductive Side where
  | left
  | right
  deriving DecidableEq, Repr, Inhabited

/-- The directions of a motor command (R47). -/
inductive Dir where
  | forward
  | reverse
  | stop
  deriving DecidableEq, Repr, Inhabited

/-- A motor command as it crosses the actuator interface: a magnitude and a direction (R47, R133). -/
structure MotorCommand where
  speed : Rat
  dir   : Dir
  deriving DecidableEq, Repr, Inhabited

end Sys2Proof
end

