-- ==== Sys2Proof/Machine/Crc.lean ====
section
/-! DEFINITION. The checksum function CRC-8/DVB-S2 (spec 40_checksum.md): the table entry as R81 generates it, the table-driven
form of R82 and the bitwise form of R83. -/

namespace Sys2Proof.Machine

/-- One step of the MSB-first polynomial division by 0xD5 (R81, R83). -/
def crcShift (c : Byte) : Byte :=
  if c.getLsbD 7 then (c <<< 1) ^^^ 0xD5#8 else c <<< 1

/-- R81, R83: "repeat 8 times". -/
def crcShift8 (c : Byte) : Byte :=
  crcShift (crcShift (crcShift (crcShift (crcShift (crcShift (crcShift (crcShift c)))))))

/-- R81: the entry `CRC_TABLE[i]`, regenerated from the polynomial (the repository's table is not used, conflict C7). -/
def crcTable (i : Byte) : Byte := crcShift8 i

/-- R82: the checksum from a running value: `c <- CRC_TABLE[c ^ b]` for each byte in order. -/
def crcFrom (c : Byte) : List Byte → Byte
  | [] => c
  | b :: bs => crcFrom (crcTable (c ^^^ b)) bs

/-- R82 `CRC8(bs)`: seeded at 0, no final XOR, no reflection. -/
def crc8 (bs : List Byte) : Byte := crcFrom 0x00#8 bs

/-- R83: the running value of the bitwise form. -/
def crcBitwiseFrom (c : Byte) : List Byte → Byte
  | [] => c
  | b :: bs => crcBitwiseFrom (crcShift8 (c ^^^ b)) bs

/-- R83 `CRC8_bitwise(bs)`. -/
def crc8Bitwise (bs : List Byte) : Byte := crcBitwiseFrom 0x00#8 bs

end Sys2Proof.Machine
end

