-- ==== Sys2Proof/Config.lean ====
section
/-! DEFINITION. What an implementation fixes (the configuration bundle CFG, spec 00_scope.md R9, 10_state.md R31) and the
values the spec leaves to the implementation or to the environment (R9 OPEN, R11, R14, R166), which are constants with no body. -/

namespace Sys2Proof

/-- The configuration bundle as it is supplied from outside (R9): channel indices are naturals that may be out of range.
`Machine.Cfg.ofBundle` refuses an ill-formed one (decision D4). -/
structure Bundle where
  throttleCh      : Nat
  steeringCh      : Nat
  deadzone        : Rat
  invertThrottle  : Bool
  invertSteering  : Bool
  inMin           : Rat := 172
  inMax           : Rat := 1811
  outMin          : Rat := -100
  outMax          : Rat := 100
  failsafeTimeout : Nat := 500000
  deriving DecidableEq, Repr, Inhabited

/-- The core's control registers (R31): the static configuration with the widths R31 gives the fields. No operation of the
core writes one. -/
structure Cfg where
  throttleCh      : BitVec 4
  steeringCh      : BitVec 4
  deadzone        : Rat
  invertThrottle  : Bool
  invertSteering  : Bool
  inMin           : Rat
  inMax           : Rat
  outMin          : Rat
  outMax          : Rat
  failsafeTimeout : Nat
  deriving DecidableEq, Repr, Inhabited

/-- One answer of the transport to a `TransportRead` (R14, R43, R46): either it is fatal, or `arrived` bytes reach the end of
the receive stream and then at most `limit` bytes are returned from its front. -/
inductive ReadAnswer where
  | deliver (arrived : List Byte) (limit : Nat)
  | fatal
  deriving DecidableEq, Repr, Inhabited

/-- The transport's settings (R11, R9 `READ_TIMEOUT`, R182, R194), with the source's literals as defaults where it gives one: no rule of
the core reads them. -/
structure TransportSettings where
  port        : String
  baud        : Nat := 420000
  parity      : Bool := false
  stopBits    : Nat := 1
  dataBits    : Nat := 8
  readTimeout : Nat := 50000
  deriving DecidableEq, Repr, Inhabited

/-- R9, R31, D3: `THROTTLE_CH` is OPEN. -/
opaque Config.throttleCh : BitVec 4
/-- R9, R31, D3: `STEERING_CH` is OPEN. -/
opaque Config.steeringCh : BitVec 4
/-- R9, R31, D3: `DEADZONE` is OPEN. -/
opaque Config.deadzone : Rat
/-- R9, R31, D3: `INVERT_THROTTLE` is OPEN. -/
opaque Config.invertThrottle : Bool
/-- R9, R31, D3: `INVERT_STEERING` is OPEN. -/
opaque Config.invertSteering : Bool

/-- R11, R29, D17: `ACTUATOR_RESET`, what the actuator holds for a motor before the core's first command to it. -/
opaque Config.actuatorReset : Side → MotorCommand

/-- R14, D8: the transport's answer to a read for which State's queue holds none (a free value, by the count of such reads). -/
opaque Config.readAnswer : Nat → ReadAnswer
/-- R14, D8: the clock's answer to a `Now()` for which State's queue holds none (a free value, by the count of such samples). -/
opaque Config.timeSample : Nat → Time
/-- R14, R140: after how many samples of `TermRequested()` the host asserts termination, if ever (a free value). -/
opaque Config.terminationAt : Option Nat
/-- R166, D25: at which injection point the host injects the internal fault, if ever (a free value). -/
opaque Config.internalFaultAt : Option Nat

/-- R11: the port identifier has no value in the spec (a free value). -/
opaque Config.portIdentifier : String

/-- The transport's settings with the source's literals (R11, R194). -/
def Config.transport : TransportSettings := { port := Config.portIdentifier }

/-- The static configuration of the machine that `State.reset` is: the OPEN fields are free values, the others have the
defaults of R9. -/
def Config.cfg : Cfg where
  throttleCh := Config.throttleCh
  steeringCh := Config.steeringCh
  deadzone := Config.deadzone
  invertThrottle := Config.invertThrottle
  invertSteering := Config.invertSteering
  inMin := 172
  inMax := 1811
  outMin := -100
  outMax := 100
  failsafeTimeout := 500000

end Sys2Proof
end

