-- ==== Sys2Proof/Machine/State.lean ====
section
/-! DEFINITION. The state of the core (spec 10_state.md R20 to R35) with the environment's answers beside it (00_scope.md R14,
R17), the reasons a step can stop, and the machine right after reset (R34). -/

namespace Sys2Proof.Machine

/-- R26: the supervisor's two states. -/
inductive Mode where
  | running
  | failsafe
  deriving DecidableEq, Repr, Inhabited

/-- R30: the phase of the control cycle. -/
inductive Phase where
  | between
  | sync
  | header
  | body
  | skip
  | validate
  | command
  | check
  | shutdown
  deriving DecidableEq, Repr, Inhabited

/-- R161: the result codes of a decode attempt. -/
inductive ResultCode where
  | ok
  | noData
  | notSync
  | shortHeader
  | unknownType
  | badLength
  | shortBody
  | badCrc
  deriving DecidableEq, Repr, Inhabited

/-- R165: the causes of a fatal fault. -/
inductive FatalCause where
  | transport
  | internal
  deriving DecidableEq, Repr, Inhabited

/-- R29: an event of the output history. -/
inductive Event where
  | motor (which : Side) (speed : Rat) (dir : Dir)
  | release
  deriving DecidableEq, Repr, Inhabited

/-- What an operation returns to its caller (R33: a transient value). -/
inductive Value where
  /-- `CRC8` (R82). -/
  | byte (b : Byte)
  /-- `TryReadFrame` and the frame classes: `none` is "no frame" (R90). -/
  | frame (r : Option ChannelSet)
  /-- `Unpack` (R110). -/
  | channels (ch : ChannelSet)
  /-- `Pack` (R111). -/
  | payload (p : Payload)
  /-- `Map`, `Deadzone`, `Invert`, `Shape` (R120 to R124). -/
  | number (q : Rat)
  /-- `Mix` (R130). -/
  | speeds (left right : Rat)
  /-- `Split` (R133). -/
  | command (c : MotorCommand)
  deriving DecidableEq, Repr, Inhabited

/-- The environment (R14, R17, R43, R166): what it has to answer the core's primitives with. An answer the queues do not hold is
a free value of Config, counted by `readDraws` and `timeDraws`. -/
structure Env where
  /-- R43: the bytes that have arrived and not yet been returned, the next one first. -/
  rx        : List Byte
  /-- R14: the answers to the next `TransportRead` calls. -/
  reads     : List ReadAnswer
  /-- How many reads were answered by `Config.readAnswer`. -/
  readDraws : Nat
  /-- R14: the answers to the next `Now()` calls. -/
  times     : List Time
  /-- How many samples were answered by `Config.timeSample`. -/
  timeDraws : Nat
  /-- R14, R140: `some k` when the host asserts termination after `k` more samples of `TermRequested()`, `none` when it never does. -/
  termIn    : Option Nat
  /-- R166: `some k` when the host injects an internal fault after `k` more injection points, `none` when it never does. -/
  faultIn   : Option Nat
  /-- R11, R182: the settings the transport was opened with; no rule of the core reads them. -/
  settings  : TransportSettings
  deriving DecidableEq, Repr, Inhabited

/-- The state of the core (R20), its control registers (R31), the value the last operation returned (R33) and the environment. -/
structure State where
  /-- R21, R24: the channel registers; `none` is the spec's own "unwritten". -/
  ch         : Option ChannelSet
  /-- R25: the time of the last validated frame. -/
  lastValid  : Time
  /-- R26. -/
  mode       : Mode
  /-- R27. -/
  halted     : Bool
  /-- R28: `none` is the spec's own "unwritten". -/
  lastResult : Option ResultCode
  /-- R29: the output event history, in emission order. -/
  out        : List Event
  /-- R30. -/
  phase      : Phase
  /-- R31: the control registers, read-only. -/
  cfg        : Cfg
  /-- R33, the model's own field: what the operation just executed returned, `none` when it returned nothing. -/
  ret        : Option Value
  /-- R17: the environment, not state of the core (R18). -/
  env        : Env
  deriving DecidableEq, Repr, Inhabited

/-- Why the machine stops. -/
inductive Fault where
  /-- R27, I15: the core is halted and an operation of the decoder or the control loop is asked for. No step is enabled (the run
  has ended). Raised by `step` and by those operations. Safe. -/
  | halted
  /-- R24, I11: `CH` is read before any frame was validated. Raised by the control cycle's read of `CH`; by R24 it never occurs. Safe. -/
  | unwrittenChannels
  deriving DecidableEq, Repr, Inhabited

/-- What the model gives no meaning to. -/
inductive Refusal where
  /-- An instruction that has no meaning yet, by its mnemonic. Safe. -/
  | notModelled (mnemonic : String)
  /-- R9, D4, I12: the configuration is ill formed (`IN_MIN >= IN_MAX`). Raised by `Reset`, by the operations that map a channel
  and by the control loop. Safe. -/
  | illFormedConfig
  /-- R111: an operand of `Pack` is above 2047, "outside the operand's domain (a model refuses it)". Raised by `Pack`. Safe. -/
  | packOutOfDomain
  deriving DecidableEq, Repr, Inhabited

/-- R14, R182: the environment when the control loop starts, with the transport's settings as its argument (R11): nothing has arrived,
and every answer is still to be drawn. -/
def Env.start (settings : TransportSettings) : Env where
  rx := []
  reads := []
  readDraws := 0
  times := []
  timeDraws := 0
  termIn := Config.terminationAt
  faultIn := Config.internalFaultAt
  settings := settings

/-- The machine right after reset (R34, R180); the time sample taken at control-loop start is the origin 0 (log entry 1). -/
def State.reset : State where
  ch := none
  lastValid := 0
  mode := .running
  halted := false
  lastResult := none
  out := []
  phase := .between
  cfg := Config.cfg
  ret := none
  env := Env.start Config.transport

end Sys2Proof.Machine
end

