-- ==== Sys2Proof/Machine/Flags.lean ====
section
/-! DEFINITION. The flags (spec 10_state.md R26 to R28, 60_exceptions.md R161, R162, R171, R172): the failsafe test and the mode
it gives, the numbers and classes of the result codes, and the operating mode. -/

namespace Sys2Proof.Machine

/-- R145, R172: the elapsed time of the failsafe timer, an integer that may be negative. -/
def elapsed (tC lastValid : Time) : Int := tC - lastValid

/-- R145: the link is stale when the elapsed time exceeds the timeout, strictly. -/
def stale (tC lastValid : Time) (timeout : Nat) : Bool := decide (elapsed tC lastValid > (timeout : Int))

/-- R26, R145: the mode the failsafe check writes. -/
def modeOf (isStale : Bool) : Mode := if isStale then .failsafe else .running

/-- R161: the numbers of the result codes. -/
def ResultCode.number : ResultCode → Nat
  | .ok => 0
  | .noData => 1
  | .notSync => 2
  | .shortHeader => 3
  | .unknownType => 4
  | .badLength => 5
  | .shortBody => 6
  | .badCrc => 7

/-- R162: the source's error classes. -/
inductive ErrorClass where
  | transportTransient
  | frameInvalid
  | linkLoss
  | transportFatal
  deriving DecidableEq, Repr, Inhabited

/-- R162: the class of a result code; `OK` and `NF_UNKNOWN_TYPE` are in none. -/
def ResultCode.errorClass : ResultCode → Option ErrorClass
  | .ok => none
  | .noData => some .transportTransient
  | .notSync => some .transportTransient
  | .shortHeader => some .transportTransient
  | .unknownType => none
  | .badLength => some .frameInvalid
  | .shortBody => some .transportTransient
  | .badCrc => some .frameInvalid

/-- R162: the class of a fatal fault's cause; an internal fault is in none of the four. -/
def FatalCause.errorClass : FatalCause → Option ErrorClass
  | .transport => some .transportFatal
  | .internal => none

/-- R171: the operating modes. -/
inductive OperatingMode where
  | running
  | failsafe
  | halted
  deriving DecidableEq, Repr, Inhabited

/-- R171: the operating mode a state is in. -/
def operatingMode (s : State) : OperatingMode :=
  if s.halted then .halted
  else match s.mode with
    | .running => .running
    | .failsafe => .failsafe

end Sys2Proof.Machine
end

