-- ==== Sys2Proof/Machine/Packing.lean ====
section
/-! DEFINITION. The bit layout of the payload (spec 30_encoding.md R66, R67; 42_channel_unpacker.md R110, R111): fields of one
width laid side by side in a natural number, the first field in the lowest bits. -/

namespace Sys2Proof.Machine

/-- The natural number whose `w`-bit fields are the list's values, the first in the lowest bits: `Σ x_i << (w*i)` (R66, R67). -/
def joinFields (w : Nat) : List Nat → Nat
  | [] => 0
  | x :: xs => x + joinFields w xs <<< w

/-- Field `i` of width `w` of `P`: the bits `P[w*i+w-1 : w*i]` (R66, R67). -/
def fieldAt (w i P : Nat) : Nat := (P >>> (w * i)) % 2 ^ w

/-- R66: the payload value `P = Σ p[b] << (8*b)`, byte 0 least significant. -/
def payloadValue (p : Payload) : Nat := joinFields 8 (p.toList.map BitVec.toNat)

/-- R110 `Unpack(p)`: channel `i` is `P[11*i+10 : 11*i]`. -/
def unpack (p : Payload) : ChannelSet :=
  Vector.ofFn fun i => BitVec.ofNat 11 (fieldAt 11 i (payloadValue p))

/-- R111: the packed value `P = Σ ch[i] << (11*i)`. -/
def channelsValue (ch : Vector Nat 16) : Nat := joinFields 11 ch.toList

/-- R111 `Pack(ch)`: `p[b] = P[8*b+7 : 8*b]`. -/
def pack (ch : Vector Nat 16) : Payload :=
  Vector.ofFn fun b => BitVec.ofNat 8 (fieldAt 8 b (channelsValue ch))

/-- R111: the operand's domain, 16 values none of which is above 2047. -/
def packInDomain (ch : Vector Nat 16) : Bool := ch.toList.all fun c => c ≤ 2047

/-- A ChannelSet as the operand of `Pack`. -/
def channelNats (ch : ChannelSet) : Vector Nat 16 := ch.map BitVec.toNat

end Sys2Proof.Machine
end

