-- ==== Sys2Proof/Machine/Operands.lean ====
section
/-! DEFINITION. How operands are assembled (spec 30_encoding.md R61 to R63, R69, R71, R73): the fixed header bytes, the length
byte as an unsigned count, the header word of the opcode table, the payload of a body, the channel a configuration index
selects, and the check of a configuration bundle (00_scope.md R9). -/

namespace Sys2Proof.Machine

/-- R61: the sync byte. -/
def syncByte : Byte := 0xC8#8

/-- R63: the frame type of the RC-channels frame. -/
def rcType : Byte := 0x16#8

/-- R62, R10: the length byte of the RC-channels frame, payload size + type byte + checksum byte. -/
def rcLength : Byte := 0x18#8

/-- R71, R94: the bytes skipped after the header of an unknown frame, `max(length - 1, 0)` (D19; truncated subtraction). -/
def skipCount (len : Byte) : Nat := len.toNat - 1

/-- R96: the bytes read after the header of an RC-channels frame, `length - 1` for length 24. -/
def bodyCount : Nat := 23

/-- R96: the payload is the first 22 bytes of the body. -/
def payloadOf (body : List Byte) : Payload := Vector.ofFn fun b => body.getD b 0#8

/-- R96: the checksum byte is byte 22 of the body. -/
def checksumOf (body : List Byte) : Byte := body.getD 22 0#8

/-- R64, R97: the bytes the checksum covers, `frameType ++ payload`. -/
def coveredBytes (p : Payload) : List Byte := rcType :: p.toList

/-- Byte `k` of a word of `n` bytes whose first byte is its most significant one (R69: `H = (byte0 << 16) | (byte1 << 8) | byte2`). -/
def wordByte (n w k : Nat) : Byte := BitVec.ofNat 8 (w >>> (8 * (n - 1 - k)))

/-- R69: the bytes of a table word of `nbits` bits, in stream order. -/
def wordBytes (nbits w : Nat) : List Byte :=
  (List.range ((nbits + 7) / 8)).map (wordByte ((nbits + 7) / 8) w)

/-- R72: the longest frame is 257 bytes. -/
def longestFrame : Nat := 257

/-- A table word laid out as the bytes of a frame, every byte above the word 0, up to the longest frame. -/
def framedWord (nbits w : Nat) : List Byte :=
  wordBytes nbits w ++ List.replicate (longestFrame - (nbits + 7) / 8) 0#8

/-- R69: the header word of the first three bytes of a frame. -/
def headerWord (b0 b1 b2 : Byte) : Nat := b0.toNat <<< 16 ||| b1.toNat <<< 8 ||| b2.toNat

/-- R142: the channel value a 4-bit configuration index selects, as the mapper's rational operand (R73: unsigned, unscaled). -/
def channelOperand (ch : ChannelSet) (index : BitVec 4) : Rat := ((ch[index.toNat]'index.isLt).toNat : Rat)

/-- R9, R31, D4: a configuration whose indices have their 4 bits is well formed when `IN_MIN < IN_MAX`. -/
def cfgWf (c : Cfg) : Bool := decide (c.inMin < c.inMax)

/-- R9, D4: a bundle is well formed only if both channel indices are below 16 and `IN_MIN < IN_MAX`. -/
def bundleWf (b : Bundle) : Bool :=
  decide (b.throttleCh < 16) && decide (b.steeringCh < 16) && decide (b.inMin < b.inMax)

/-- R9, R31: the control registers a well-formed bundle sets; an ill-formed bundle sets none (it is refused). -/
def cfgOfBundle (b : Bundle) : Option Cfg :=
  if bundleWf b then
    some { throttleCh := BitVec.ofNat 4 b.throttleCh, steeringCh := BitVec.ofNat 4 b.steeringCh, deadzone := b.deadzone,
           invertThrottle := b.invertThrottle, invertSteering := b.invertSteering, inMin := b.inMin, inMax := b.inMax,
           outMin := b.outMin, outMax := b.outMax, failsafeTimeout := b.failsafeTimeout }
  else none

end Sys2Proof.Machine
end

