-- ==== Sys2Proof/Machine/Ops.lean ====
section
/-! DEFINITION. The named operations over the state (spec 00_scope.md R14): updates of one field, the primitives through which
the core meets its environment, the injection points of internal faults (60_exceptions.md R166), the entry into shutdown
(R165; 45_failsafe_supervisor.md R148), and the boundary at which an operation's flow becomes an outcome. -/

namespace Sys2Proof.Machine

/-- Writes `CH`, all 16 registers at once (R23). -/
def State.setCh (s : State) (v : ChannelSet) : State := { s with ch := some v }
/-- Writes `LAST_VALID` (R25). -/
def State.setLastValid (s : State) (v : Time) : State := { s with lastValid := v }
/-- Writes `MODE` (R26). -/
def State.setMode (s : State) (v : Mode) : State := { s with mode := v }
/-- Writes `HALTED` (R27). -/
def State.setHalted (s : State) (v : Bool) : State := { s with halted := v }
/-- Writes `LAST_RESULT` (R28). -/
def State.setLastResult (s : State) (v : ResultCode) : State := { s with lastResult := some v }
/-- Appends an event to `OUT` (R29). -/
def State.emit (s : State) (e : Event) : State := { s with out := s.out ++ [e] }
/-- Moves to a phase of the cycle (R30). -/
def State.setPhase (s : State) (v : Phase) : State := { s with phase := v }
/-- Sets what the operation returned (R33). -/
def State.setRet (s : State) (v : Option Value) : State := { s with ret := v }
/-- Changes the environment only (R17). -/
def State.setEnv (s : State) (v : Env) : State := { s with env := v }

/-- How an operation of the core proceeds: it returns a value, or a fatal fault has been raised (R165), or it stops. -/
inductive Flow (α : Type) where
  | ok (a : α) (s : State)
  | fatal (cause : FatalCause) (s : State)
  | stop (f : Fault)
  deriving Repr

/-- R15: the next statement runs where the one before it returned; a raised fault or a stop ends the operation. -/
def Flow.bind {α β : Type} (x : Flow α) (k : α → State → Flow β) : Flow β :=
  match x with
  | .ok a s => k a s
  | .fatal c s => .fatal c s
  | .stop f => .stop f

/-- The answer to the next read and the environment without it. -/
def Env.nextRead (e : Env) : ReadAnswer × Env :=
  match e.reads with
  | a :: more => (a, { e with reads := more })
  | [] => (Config.readAnswer e.readDraws, { e with readDraws := e.readDraws + 1 })

/-- R14, R41, R43, R46 `TransportRead(n)`: a read of 0 bytes returns no bytes and draws no answer; `Fatal` raises `Fatal(TRANSPORT)`. -/
def transportRead (n : Nat) (s : State) : Flow (List Byte) :=
  if n = 0 then .ok [] s
  else match s.env.nextRead with
    | (.fatal, e) => .fatal .transport (s.setEnv e)
    | (.deliver arrived limit, e) =>
      .ok ((e.rx ++ arrived).take (min n limit)) (s.setEnv { e with rx := (e.rx ++ arrived).drop (min n limit) })

/-- The answer to the next `Now()` and the environment without it. -/
def Env.nextTime (e : Env) : Time × Env :=
  match e.times with
  | t :: more => (t, { e with times := more })
  | [] => (Config.timeSample e.timeDraws, { e with timeDraws := e.timeDraws + 1 })

/-- R14 `Now()`: the sample. -/
def nowTime (s : State) : Time := s.env.nextTime.1

/-- R14 `Now()`: the state after the sample is taken. -/
def afterNow (s : State) : State := s.setEnv s.env.nextTime.2

/-- R14, R140, R167 `TermRequested()`: the sample. -/
def termRequested (s : State) : Bool := s.env.termIn == some 0

/-- R167: the state after the sample; an asserted request stays asserted (the core cannot clear it), into a new run too (log entry 26). -/
def afterTermSample (s : State) : State :=
  s.setEnv { s.env with termIn := s.env.termIn.map (· - 1) }

/-- R14, R47 `SetMotor(which, speed, dir)`. -/
def setMotor (which : Side) (speed : Rat) (dir : Dir) (s : State) : State := s.emit (.motor which speed dir)

/-- R14, R45 `ReleaseTransport()`. -/
def releaseTransport (s : State) : State := s.emit .release

/-- R166: an injection point, at which the host may inject `Fatal(INTERNAL)`; once injected it does not come again, in a new run either
(log entry 26). -/
def injectionPoint (s : State) : Flow Unit :=
  match s.env.faultIn with
  | none => .ok () s
  | some 0 => .fatal .internal (s.setEnv { s.env with faultIn := none })
  | some (k + 1) => .ok () (s.setEnv { s.env with faultIn := some k })

/-- R48, R143: a command pair, left then right, with an injection point between the two (R166). -/
def commandPair (l r : MotorCommand) (s : State) : Flow Unit :=
  (injectionPoint (setMotor .left l.speed l.dir s)).bind fun _ s => .ok () (setMotor .right r.speed r.dir s)

/-- R144: the command the all-stop pair sends to each motor. -/
def stopCommand : MotorCommand := ⟨0, .stop⟩

/-- R144, R148: the all-stop pair of shutdown, in which no fault is injected. -/
def allStop (s : State) : State := setMotor .right 0 .stop (setMotor .left 0 .stop s)

/-- R148 `Shutdown()`: all-stop, then release, then `HALTED`; the phase is SHUTDOWN from here on (R30). -/
def shutdown (s : State) : State :=
  ((releaseTransport (allStop (s.setPhase .shutdown))).setHalted true).setRet none

/-- R165, R149: entry into shutdown on `Fatal(cause)`. Nothing is saved (there is no cause register), the state and the events
before the fault stay as they are. -/
def takeFatal (_cause : FatalCause) (s : State) : State := shutdown s

/-- R24, I11: the control cycle's read of `CH`. -/
def readChannels (s : State) : Flow ChannelSet :=
  match s.ch with
  | some ch => .ok ch s
  | none => .stop .unwrittenChannels

/-- The boundary of an operation: what it returned goes into `ret`; a fatal fault goes to shutdown (R165). -/
def Flow.outcome {α : Type} (ret : α → Option Value) (x : Flow α) : Host.Outcome State Fault Refusal :=
  match x with
  | .ok a s => .next (s.setRet (ret a))
  | .fatal c s => .next (takeFatal c s)
  | .stop f => .fault f

/-- R27, I15: in a halted core no operation of the decoder or the control loop is enabled. -/
def whenLive (s : State) (k : Host.Outcome State Fault Refusal) : Host.Outcome State Fault Refusal :=
  if s.halted then .fault .halted else k

/-- R9, D4: a model refuses an ill-formed configuration. -/
def whenConfigured (s : State) (k : Host.Outcome State Fault Refusal) : Host.Outcome State Fault Refusal :=
  if cfgWf s.cfg then k else .refused .illFormedConfig

/-- A pure operation returns its value and writes no state of the core (R80, R110, R120, R130: "State written: none"). -/
def returnValue (v : Value) (s : State) : Host.Outcome State Fault Refusal := .next (s.setRet (some v))

/-- R29: the command held for a motor once an event has been emitted. -/
def holdEvent (which : Side) (held : MotorCommand) : Event → MotorCommand
  | .motor w v d => if w = which then ⟨v, d⟩ else held
  | .release => held

/-- R29: the command the actuator holds for a motor: its last command in the history, `ACTUATOR_RESET` before the first. -/
def heldCommand (which : Side) (out : List Event) : MotorCommand :=
  out.foldl (holdEvent which) (Config.actuatorReset which)

/-- A table word's bytes put at the front of the receive stream, with the answers that let the very next step read and run them:
full delivery of every read, two samples at which no time has passed, no termination, no internal fault. -/
def placeWord (nbits w : Nat) (s : State) : State :=
  s.setEnv { s.env with rx := framedWord nbits w ++ s.env.rx, reads := List.replicate 3 (.deliver [] longestFrame) ++ s.env.reads,
                        times := [s.lastValid, s.lastValid] ++ s.env.times, termIn := none, faultIn := none }

end Sys2Proof.Machine
end

