-- ==== Sys2Proof/Machine/ChecksumEngine.lean ====
section
/-! DEFINITION. The Checksum Engine (spec 40_checksum.md). -/

namespace Sys2Proof.Machine

/-- R80, R82 `CRC8(bs)`: a pure function; it reads no state. -/
def execCrc8 (bs : List Byte) (s : State) : Host.Outcome State Fault Refusal := returnValue (.byte (crc8 bs)) s

end Sys2Proof.Machine
end

