-- ==== Sys2Proof/Machine/Arith.lean ====
section
/-! DEFINITION. The rational datapath (spec 43_channel_mapper.md R120 to R124, 44_drive_mixer.md R130 to R133), in exact
arithmetic (00_scope.md R13). -/

namespace Sys2Proof.Machine

/-- R13: `clamp(v, lo, hi) = min(max(v, lo), hi)`. -/
def clamp (v lo hi : Rat) : Rat := min (max v lo) hi

/-- R120 `Map(raw)`. -/
def mapRaw (c : Cfg) (raw : Rat) : Rat :=
  c.outMin + (clamp raw c.inMin c.inMax - c.inMin) * (c.outMax - c.outMin) / (c.inMax - c.inMin)

/-- R122 `Deadzone(v)`: the comparison is strict. -/
def deadzone (c : Cfg) (v : Rat) : Rat := if |v| < c.deadzone then 0 else v

/-- R123 `Invert(v, flag)`. -/
def invert (v : Rat) (flag : Bool) : Rat := if flag then -v else v

/-- R124 `Shape(raw, flag)`: map, then deadzone, then inversion. -/
def shape (c : Cfg) (raw : Rat) (flag : Bool) : Rat := invert (deadzone c (mapRaw c raw)) flag

/-- R130: the left side before the final clamp: slowed by a negative steering. -/
def mixLeft (t s : Rat) : Rat := if s < 0 then t * (1 - |s| / 100) else t

/-- R130: the right side before the final clamp: slowed by a positive steering. -/
def mixRight (t s : Rat) : Rat := if s > 0 then t * (1 - s / 100) else t

/-- R130, R131 `Mix(throttle, steering)`, both sides clamped to [-100, 100]. -/
def mix (t s : Rat) : Rat × Rat := (clamp (mixLeft t s) (-100) 100, clamp (mixRight t s) (-100) 100)

/-- R133 `Split(v)`. -/
def split (v : Rat) : MotorCommand :=
  if v > 0 then ⟨v, .forward⟩ else if v < 0 then ⟨-v, .reverse⟩ else ⟨0, .stop⟩

/-- R142: the NormalizedCommand (throttle, steering) of a ChannelSet. -/
def normalized (c : Cfg) (ch : ChannelSet) : Rat × Rat :=
  (shape c (channelOperand ch c.throttleCh) c.invertThrottle, shape c (channelOperand ch c.steeringCh) c.invertSteering)

/-- R142, R143: the signed left and right speeds of a ChannelSet. -/
def mixedSpeeds (c : Cfg) (ch : ChannelSet) : Rat × Rat := mix (normalized c ch).1 (normalized c ch).2

end Sys2Proof.Machine
end

