-- ==== Sys2Proof/Machine/Mapper.lean ====
section
/-! DEFINITION. The Channel Mapper, deadzone and inversion (spec 43_channel_mapper.md). -/

namespace Sys2Proof.Machine

/-- R120 `Map(raw)`. -/
def execMap (raw : Rat) (s : State) : Host.Outcome State Fault Refusal :=
  whenConfigured s (returnValue (.number (mapRaw s.cfg raw)) s)

/-- R122 `Deadzone(v)`. -/
def execDeadzone (v : Rat) (s : State) : Host.Outcome State Fault Refusal := returnValue (.number (deadzone s.cfg v)) s

/-- R123 `Invert(v, flag)`. -/
def execInvert (v : Rat) (flag : Bool) (s : State) : Host.Outcome State Fault Refusal :=
  returnValue (.number (invert v flag)) s

/-- R124 `Shape(raw, flag)`. -/
def execShape (raw : Rat) (flag : Bool) (s : State) : Host.Outcome State Fault Refusal :=
  whenConfigured s (returnValue (.number (shape s.cfg raw flag)) s)

end Sys2Proof.Machine
end

