-- ==== Sys2Proof/Machine/Mixer.lean ====
section
/-! DEFINITION. The Drive Mixer (spec 44_drive_mixer.md). -/

namespace Sys2Proof.Machine

/-- R130 `Mix(throttle, steering)`. -/
def execMix (t st : Rat) (s : State) : Host.Outcome State Fault Refusal :=
  returnValue (.speeds (mix t st).1 (mix t st).2) s

/-- R133 `Split(v)`. -/
def execSplit (v : Rat) (s : State) : Host.Outcome State Fault Refusal := returnValue (.command (split v)) s

end Sys2Proof.Machine
end

