-- ==== Sys2Proof/Syntax.lean ====
section
/-! DEFINITION. The instructions: one constructor per row of spec/opcode_table.json. The first five are the frame classes the
Frame Decoder tells apart (30_encoding.md R68); the others are the internal operations, which no bit pattern selects and which
therefore carry their operands as the spec's rules name them. -/

namespace Sys2Proof

/-- The rows of the opcode table. -/
inductive Instr where
  /-- R91: the byte read at the sync phase is not 0xC8. -/
  | notSync (b : Byte)
  /-- R94: a frame of unknown type with its length byte, its type byte and the bytes skipped. -/
  | unknownType (len ty : Byte) (skipped : List Byte)
  /-- R95: an RC-channels header whose length byte is not 24. -/
  | rcBadLength (len : Byte)
  /-- R97: a 26-byte RC-channels frame whose checksum byte is wrong. -/
  | rcBadCrc (payload : Payload) (checksum : Byte)
  /-- R98: a validated RC-channels frame (its checksum byte is determined by its payload). -/
  | rcChannels (payload : Payload)
  /-- R82 `CRC8(bs)`. -/
  | crc8 (bs : List Byte)
  /-- R90 `TryReadFrame()`. -/
  | tryReadFrame
  /-- R110 `Unpack(p)`. -/
  | unpack (p : Payload)
  /-- R111 `Pack(ch)`: 16 naturals, in the operand's domain when none is above 2047. -/
  | pack (ch : Vector Nat 16)
  /-- R120 `Map(raw)`. -/
  | map (raw : Rat)
  /-- R122 `Deadzone(v)`. -/
  | deadzone (v : Rat)
  /-- R123 `Invert(v, flag)`. -/
  | invert (v : Rat) (flag : Bool)
  /-- R124 `Shape(raw, flag)`. -/
  | shape (raw : Rat) (flag : Bool)
  /-- R130 `Mix(throttle, steering)`. -/
  | mix (throttle steering : Rat)
  /-- R133 `Split(v)`. -/
  | split (v : Rat)
  /-- R140 `Run()`: one turn of the loop. -/
  | run
  /-- R141 `Cycle()`. -/
  | cycle
  /-- R142, R143 `CommandFromChannels(ch)`. -/
  | commandFromChannels (ch : ChannelSet)
  /-- R145 `FailsafeCheck()`. -/
  | failsafeCheck
  /-- R148 `Shutdown()`. -/
  | shutdown
  /-- R180 `Reset()`. -/
  | reset
  deriving DecidableEq, Repr, Inhabited

/-- The frame classes alone (R68): what the reads of a decode attempt can come to. -/
inductive FrameClass where
  | notSync (b : Byte)
  | unknownType (len ty : Byte) (skipped : List Byte)
  | rcBadLength (len : Byte)
  | rcBadCrc (payload : Payload) (checksum : Byte)
  | rcChannels (payload : Payload)
  deriving DecidableEq, Repr, Inhabited

end Sys2Proof
end

