-- ==== Sys2Proof/WellFormed.lean ====
section
/-! DEFINITION. Which instruction terms stand for something the spec describes: a frame class term must satisfy the condition
of its class (spec 30_encoding.md R68), an operation's operands must lie in the domain its rule gives. -/

namespace Sys2Proof

open Machine

/-- The conditions of R68's classes and the operand domains of R111 (`Pack`) and R133 (`Split`). The other operations take
every operand their types admit. -/
def Instr.wf : Instr → Bool
  | .notSync b => b != syncByte
  | .unknownType len ty skipped => ty != rcType && skipped.length == skipCount len
  | .rcBadLength len => len != rcLength
  | .rcBadCrc p c => c != Machine.crc8 (coveredBytes p)
  | .rcChannels _ => true
  | .crc8 _ => true
  | .tryReadFrame => true
  | .unpack _ => true
  | .pack ch => packInDomain ch
  | .map _ => true
  | .deadzone _ => true
  | .invert _ _ => true
  | .shape _ _ => true
  | .mix _ _ => true
  | .split v => decide (-100 ≤ v ∧ v ≤ 100)
  | .run => true
  | .cycle => true
  | .commandFromChannels _ => true
  | .failsafeCheck => true
  | .shutdown => true
  | .reset => true

end Sys2Proof
end

