-- ==== Sys2Proof/Decode.lean ====
section
/-! DEFINITION. The decoder of the input stream and, after it, the encoder (spec 30_encoding.md R60 to R69, 41_frame_decoder.md
R91 to R98). `decode` reads the front of a stream whose bytes are all delivered; it is total, and where the stream ends too
early for a class it rejects by name. The internal operations have no encoding (spec/opcode_table.json: "not selected by any
bit pattern"). -/

namespace Sys2Proof

open Machine

/-- Why the front of a stream is no whole frame (R68: truncation is a result of the read, not a class). -/
inductive DecodeReject where
  /-- R91: there is no byte at all. -/
  | noData
  /-- R92: fewer than two bytes follow the sync byte. -/
  | shortHeader
  /-- R96: fewer than 23 bytes follow the header of an RC-channels frame of length 24. -/
  | shortBody
  deriving DecidableEq, Repr, Inhabited

/-- The decoder's answer: an instruction and the bytes after it, or the name of the rejection. -/
inductive Decoded where
  | instr (i : Instr) (rest : List Byte)
  | reject (why : DecodeReject)
  deriving DecidableEq, Repr, Inhabited

/-- The instruction that stands for a frame class. -/
def FrameClass.instr : FrameClass → Instr
  | .notSync b => .notSync b
  | .unknownType len ty skipped => .unknownType len ty skipped
  | .rcBadLength len => .rcBadLength len
  | .rcBadCrc p c => .rcBadCrc p c
  | .rcChannels p => .rcChannels p

/-- R97, R98: the class of a 23-byte body behind a good RC-channels header: the checksum byte equals the CRC of type and payload,
or it does not. -/
def classifyBody (body : List Byte) : FrameClass :=
  if Machine.crc8 (coveredBytes (payloadOf body)) = checksumOf body then .rcChannels (payloadOf body)
  else .rcBadCrc (payloadOf body) (checksumOf body)

/-- R94, R95, R96: the class behind a sync byte and a whole header, by the priorities of R68. -/
def decodeHeader (len ty : Byte) (rest : List Byte) : Decoded :=
  if ty ≠ rcType then .instr (.unknownType len ty (rest.take (skipCount len))) (rest.drop (skipCount len))
  else if len ≠ rcLength then .instr (.rcBadLength len) rest
  else if rest.length < bodyCount then .reject .shortBody
  else .instr (classifyBody (rest.take bodyCount)).instr (rest.drop bodyCount)

/-- R68, R91, R92: the class of the front of a stream. -/
def decode : List Byte → Decoded
  | [] => .reject .noData
  | b :: rest =>
    if b ≠ syncByte then .instr (.notSync b) rest
    else match rest with
      | len :: ty :: more => decodeHeader len ty more
      | _ => .reject .shortHeader

/-- R60 to R65, R69: the bytes of a frame class term in stream order; the internal operations have none. For `notSync` it is the
one byte read, for `rcBadLength` the three header bytes read, otherwise the whole frame. -/
def encode : Instr → Option (List Byte)
  | .notSync b => some [b]
  | .unknownType len ty skipped => some (syncByte :: len :: ty :: skipped)
  | .rcBadLength len => some [syncByte, len, rcType]
  | .rcBadCrc p c => some (syncByte :: rcLength :: rcType :: (p.toList ++ [c]))
  | .rcChannels p => some (syncByte :: rcLength :: rcType :: (p.toList ++ [Machine.crc8 (coveredBytes p)]))
  | .crc8 _ => none
  | .tryReadFrame => none
  | .unpack _ => none
  | .pack _ => none
  | .map _ => none
  | .deadzone _ => none
  | .invert _ _ => none
  | .shape _ _ => none
  | .mix _ _ => none
  | .split _ => none
  | .run => none
  | .cycle => none
  | .commandFromChannels _ => none
  | .failsafeCheck => none
  | .shutdown => none
  | .reset => none

/-- The instruction of an answer, if it is one. -/
def Decoded.instr? : Decoded → Option Instr
  | .instr i _ => some i
  | .reject _ => none

/-- The instruction the decoder reads from a word of the opcode table: R69's header word `H` (its first byte most significant),
every byte above it 0 up to the longest frame. -/
def decodeTableWord (nbits w : Nat) : Option Instr := (decode (framedWord nbits w)).instr?

end Sys2Proof
end

