-- ==== Sys2Proof/Machine/FrameDecoder.lean ====
section
/-! DEFINITION. The Frame Decoder (spec 41_frame_decoder.md): the reads of one attempt (`fetch`), the effect of each frame
class, and `TryReadFrame`. A frame class's instruction is what the decoder does once its bytes are read (R91, R94, R95, R97,
R98); the reads themselves, and so the bytes consumed (R99), are `fetch`. -/

namespace Sys2Proof.Machine

/-- What the reads of one attempt came to: too few bytes (with the result code), or a frame class. -/
inductive Attempt where
  | short (code : ResultCode)
  | frame (f : FrameClass)
  deriving DecidableEq, Repr

/-- R96, R97: the body read; a whole body goes on to the validate phase. -/
def fetchBody (s : State) : Flow Attempt :=
  (injectionPoint s).bind fun _ s =>
  (transportRead bodyCount (s.setPhase .body)).bind fun body s =>
  if body.length < bodyCount then .ok (.short .shortBody) s
  else (injectionPoint s).bind fun _ s => .ok (.frame (classifyBody body)) (s.setPhase .validate)

/-- R94: the skip read of an unknown frame: one request, whatever is returned is discarded. -/
def fetchSkip (len ty : Byte) (s : State) : Flow Attempt :=
  (injectionPoint s).bind fun _ s =>
  (transportRead (skipCount len) (s.setPhase .skip)).bind fun skipped s => .ok (.frame (.unknownType len ty skipped)) s

/-- R92, R94, R95: the header read and the checks on it, the type before the length (R168). -/
def fetchHeader (s : State) : Flow Attempt :=
  (injectionPoint s).bind fun _ s =>
  (transportRead 2 (s.setPhase .header)).bind fun h s =>
  match h with
  | len :: ty :: _ =>
    if ty ≠ rcType then fetchSkip len ty s
    else if len ≠ rcLength then .ok (.frame (.rcBadLength len)) s
    else fetchBody s
  | _ => .ok (.short .shortHeader) s

/-- R90, R91: the reads of one decode attempt, from the sync phase on. -/
def fetch (s : State) : Flow Attempt :=
  (transportRead 1 (s.setPhase .sync)).bind fun r s =>
  match r with
  | b :: _ => if b ≠ syncByte then .ok (.frame (.notSync b)) s else fetchHeader s
  | [] => .ok (.short .noData) s

/-- R98: the accept step: `CH` and `LAST_RESULT` are written in one step. -/
def accept (p : Payload) (s : State) : State := (s.setCh (unpack p)).setLastResult .ok

/-- The state after an attempt's last statement: the ChannelSet on a validated frame only (R98, R101), `LAST_RESULT` at every
exit (R28, R90). -/
def Attempt.record (a : Attempt) (s : State) : State :=
  match a with
  | .short code => s.setLastResult code
  | .frame (.notSync _) => s.setLastResult .notSync
  | .frame (.unknownType _ _ _) => s.setLastResult .unknownType
  | .frame (.rcBadLength _) => s.setLastResult .badLength
  | .frame (.rcBadCrc _ _) => s.setLastResult .badCrc
  | .frame (.rcChannels p) => accept p s

/-- What an attempt returns: the new ChannelSet on a validated frame, otherwise "no frame" (R90). -/
def Attempt.result : Attempt → Option ChannelSet
  | .short _ => none
  | .frame (.notSync _) => none
  | .frame (.unknownType _ _ _) => none
  | .frame (.rcBadLength _) => none
  | .frame (.rcBadCrc _ _) => none
  | .frame (.rcChannels p) => some (unpack p)

/-- R90 `TryReadFrame()`: a fatal read ends it at that point, writing neither `CH` nor `LAST_RESULT` (R100), and so does an internal
fault between its reads and its record (R166). -/
def tryReadFrame (s : State) : Flow (Option ChannelSet) :=
  (fetch s).bind fun a s => (injectionPoint s).bind fun _ s => .ok a.result (a.record s)

/-- The effect of a frame class in a live core: the attempt's record and its result. -/
def execFrame (f : FrameClass) (s : State) : Host.Outcome State Fault Refusal :=
  whenLive s (.next (((Attempt.frame f).record s).setRet (some (.frame (Attempt.frame f).result))))

/-- R91: no frame, `NF_NOT_SYNC`. -/
def execNotSync (b : Byte) (s : State) : Host.Outcome State Fault Refusal := execFrame (.notSync b) s

/-- R94: no frame, `NF_UNKNOWN_TYPE`; the skipped bytes are not examined. -/
def execUnknownType (len ty : Byte) (skipped : List Byte) (s : State) : Host.Outcome State Fault Refusal :=
  execFrame (.unknownType len ty skipped) s

/-- R95: no frame, `NF_BAD_LENGTH`. -/
def execRcBadLength (len : Byte) (s : State) : Host.Outcome State Fault Refusal := execFrame (.rcBadLength len) s

/-- R97: no frame, `NF_BAD_CRC`. -/
def execRcBadCrc (p : Payload) (c : Byte) (s : State) : Host.Outcome State Fault Refusal := execFrame (.rcBadCrc p c) s

/-- R98: a validated frame: `CH <- Unpack(payload)`, `OK`. -/
def execRcChannels (p : Payload) (s : State) : Host.Outcome State Fault Refusal := execFrame (.rcChannels p) s

/-- R90 `TryReadFrame()`. -/
def execTryReadFrame (s : State) : Host.Outcome State Fault Refusal :=
  whenLive s ((tryReadFrame s).outcome fun r => some (.frame r))

end Sys2Proof.Machine
end

