-- ==== Sys2Proof/Machine/Supervisor.lean ====
section
/-! DEFINITION. The Control Loop and Failsafe Supervisor (spec 45_failsafe_supervisor.md) and the reset sequence
(70_reset_and_hazards.md R180). -/

namespace Sys2Proof.Machine

/-- R142, R143 `CommandFromChannels(ch)`: the mixed pair, left then right. -/
def commandFromChannels (ch : ChannelSet) (s : State) : Flow Unit :=
  commandPair (split (mixedSpeeds s.cfg ch).1) (split (mixedSpeeds s.cfg ch).2) (s.setPhase .command)

/-- R145, the part behind the time sample: the all-stop pair in every stale check (R147), and the mode. -/
def checkAt (tC : Time) (s : State) : Flow Unit :=
  if stale tC s.lastValid s.cfg.failsafeTimeout then
    (commandPair stopCommand stopCommand s).bind fun _ s =>
    (injectionPoint s).bind fun _ s => .ok () (s.setMode (modeOf true))
  else .ok () (s.setMode (modeOf false))

/-- R145 `FailsafeCheck()`. -/
def failsafeCheck (s : State) : Flow Unit :=
  (injectionPoint (afterNow (s.setPhase .check))).bind fun _ s' => checkAt (nowTime s) s'

/-- R141: the success path: the link-state update, then the command from the ChannelSet just written to `CH` (R21, R142). -/
def commandOnSuccess (s : State) : Flow Unit :=
  (injectionPoint ((afterNow (s.setPhase .command)).setLastValid (nowTime s))).bind fun _ s =>
  (readChannels s).bind fun ch s =>
  (commandFromChannels ch s).bind fun _ s => injectionPoint s

/-- R141: what a cycle does once its decode attempt has returned: the success path, then the failsafe check in every case. -/
def afterDecode (r : Option ChannelSet) (s : State) : Flow Unit :=
  (injectionPoint s).bind fun _ s =>
  (match r with
    | some _ => commandOnSuccess s
    | none => .ok () s).bind fun _ s =>
  (failsafeCheck s).bind fun _ s =>
  (injectionPoint s).bind fun _ s => .ok () (s.setPhase .between)

/-- R141 `Cycle()`. -/
def cycle (s : State) : Flow Unit :=
  (injectionPoint s).bind fun _ s => (tryReadFrame s).bind afterDecode

/-- R140 `Run()`, one turn of its loop: the termination sample, then shutdown or one cycle. -/
def runTurn (s : State) : Host.Outcome State Fault Refusal :=
  if termRequested s then .next (shutdown (afterTermSample s)) else (cycle (afterTermSample s)).outcome fun _ => none

/-- R140 `Run()`: one turn; the loop is the sequence of steps. -/
def execRun (s : State) : Host.Outcome State Fault Refusal := whenLive s (whenConfigured s (runTurn s))

/-- R141 `Cycle()`; a fatal fault inside goes to shutdown (R149). -/
def execCycle (s : State) : Host.Outcome State Fault Refusal :=
  whenLive s (whenConfigured s ((cycle s).outcome fun _ => none))

/-- R142, R143 `CommandFromChannels(ch)`. -/
def execCommandFromChannels (ch : ChannelSet) (s : State) : Host.Outcome State Fault Refusal :=
  whenLive s (whenConfigured s ((commandFromChannels ch s).outcome fun _ => none))

/-- R145 `FailsafeCheck()`. -/
def execFailsafeCheck (s : State) : Host.Outcome State Fault Refusal :=
  whenLive s ((failsafeCheck s).outcome fun _ => none)

/-- R148 `Shutdown()`; it runs exactly once (R168: it is not re-entered). -/
def execShutdown (s : State) : Host.Outcome State Fault Refusal := whenLive s (.next (shutdown s))

/-- R180: the state the reset sequence leaves; `CFG` and the environment's queues are not its to write, but `Now()` takes a sample.
DESIGN CHOICE (log entry 26): the counts to a termination and to an internal fault stand on into the new run as they are, so after a run
that a termination ended the first turn shuts down, and after a run that an internal fault ended no other comes. -/
def resetState (s : State) : State where
  ch := none
  lastValid := nowTime s
  mode := .running
  halted := false
  lastResult := none
  out := []
  phase := .between
  cfg := s.cfg
  ret := none
  env := (afterNow s).env

/-- R180 `Reset()`: it requires a well-formed configuration (refused otherwise) and emits no event. -/
def execReset (s : State) : Host.Outcome State Fault Refusal := whenConfigured s (.next (resetState s))

end Sys2Proof.Machine
end

