-- ==== Sys2Proof/Machine/Unpacker.lean ====
section
/-! DEFINITION. The 11-bit channel unpacker (spec 42_channel_unpacker.md). -/

namespace Sys2Proof.Machine

/-- R110 `Unpack(p)`. -/
def execUnpack (p : Payload) (s : State) : Host.Outcome State Fault Refusal := returnValue (.channels (unpack p)) s

/-- R111 `Pack(ch)`: a value above 2047 is outside the operand's domain and refused. -/
def execPack (ch : Vector Nat 16) (s : State) : Host.Outcome State Fault Refusal :=
  if packInDomain ch then returnValue (.payload (pack ch)) s else .refused .packOutOfDomain

end Sys2Proof.Machine
end

