-- ==== Sys2Proof/Machine/Dispatch.lean ====
section
/-! DEFINITION. The dispatch: one arm per row of the opcode table, each one call of its meaning. -/

namespace Sys2Proof.Machine

def exec (i : Instr) (s : State) : Host.Outcome State Fault Refusal :=
  match i with
  -- the frame classes (30_encoding.md R68)
  | .notSync b => Sys2Proof.Machine.execNotSync b s
  | .unknownType len ty skipped => Sys2Proof.Machine.execUnknownType len ty skipped s
  | .rcBadLength len => Sys2Proof.Machine.execRcBadLength len s
  | .rcBadCrc p c => Sys2Proof.Machine.execRcBadCrc p c s
  | .rcChannels p => Sys2Proof.Machine.execRcChannels p s
  -- the internal operations
  | .crc8 bs => Sys2Proof.Machine.execCrc8 bs s
  | .tryReadFrame => Sys2Proof.Machine.execTryReadFrame s
  | .unpack p => Sys2Proof.Machine.execUnpack p s
  | .pack ch => Sys2Proof.Machine.execPack ch s
  | .map raw => Sys2Proof.Machine.execMap raw s
  | .deadzone v => Sys2Proof.Machine.execDeadzone v s
  | .invert v flag => Sys2Proof.Machine.execInvert v flag s
  | .shape raw flag => Sys2Proof.Machine.execShape raw flag s
  | .mix t st => Sys2Proof.Machine.execMix t st s
  | .split v => Sys2Proof.Machine.execSplit v s
  | .run => Sys2Proof.Machine.execRun s
  | .cycle => Sys2Proof.Machine.execCycle s
  | .commandFromChannels ch => Sys2Proof.Machine.execCommandFromChannels ch s
  | .failsafeCheck => Sys2Proof.Machine.execFailsafeCheck s
  | .shutdown => Sys2Proof.Machine.execShutdown s
  | .reset => Sys2Proof.Machine.execReset s

end Sys2Proof.Machine
end

