-- ==== Sys2Proof/Machine/Step.lean ====
section
/-! DEFINITION. One step of the machine: one turn of the control loop (spec 45_failsafe_supervisor.md R140), in which the decoder
fetches the next frame from the transport's stream (70_reset_and_hazards.md R181, R190). -/

namespace Sys2Proof.Machine

/-- One step: one turn of `Run()`. -/
def step (s : State) : Host.Outcome State Fault Refusal := exec .run s

/-- The state with a table word's bytes where the next step's decode attempt reads them. -/
def State.withFetchWord (s : State) (nbits w : Nat) : State := placeWord nbits w s

end Sys2Proof.Machine
end

