-- ==== Sys2Proof/Safety.lean ====
section
/-! DEFINITION. What the claims call safe (spec 45_failsafe_supervisor.md R144 to R151, 20_memory.md R47): events the actuator port
accepts, a history that ends in the cleanup once the core is halted, motors held stopped in FAILSAFE; and the rules' own words
for the events of a cycle (R150), of shutdown (R148), and for the parts of the state a decode attempt may touch. -/

namespace Sys2Proof.Safety

open Machine

/-- R47, R133: a command the actuator port accepts: a speed in [0, 100], and `stop` exactly with speed 0 (D23, log entry 19). -/
def EventInRange : Event → Prop
  | .motor _ speed dir => 0 ≤ speed ∧ speed ≤ 100 ∧ (dir = .stop ↔ speed = 0)
  | .release => True

/-- R144: the all-stop pair as events. -/
def allStopEvents : List Event := [.motor .left 0 .stop, .motor .right 0 .stop]

/-- R148: the events of shutdown. -/
def shutdownEvents : List Event := allStopEvents ++ [.release]

/-- R143: the mixed pair of a ChannelSet as events. -/
def mixedEvents (c : Cfg) (ch : ChannelSet) : List Event :=
  [.motor .left (split (mixedSpeeds c ch).1).speed (split (mixedSpeeds c ch).1).dir,
   .motor .right (split (mixedSpeeds c ch).2).speed (split (mixedSpeeds c ch).2).dir]

/-- R145, R147: the events of a failsafe check at time `tC`. -/
def checkEvents (tC lastValid : Time) (timeout : Nat) : List Event :=
  if tC - lastValid > (timeout : Int) then allStopEvents else []

/-- R145: the mode after a failsafe check at time `tC`. -/
def checkMode (tC lastValid : Time) (timeout : Nat) : Mode :=
  if tC - lastValid > (timeout : Int) then .failsafe else .running

/-- R150: the state at the end of a cycle whose decode attempt ended in state `u` with result `r`, when no fault strikes: on a
validated frame the first sample updates the link state and the mixed pair is emitted; then the failsafe check. -/
def cycleEnd (r : Option ChannelSet) (u : State) : State :=
  match r with
  | none =>
    { afterNow u with
      out := u.out ++ checkEvents (nowTime u) u.lastValid u.cfg.failsafeTimeout
      mode := checkMode (nowTime u) u.lastValid u.cfg.failsafeTimeout
      phase := .between, ret := none }
  | some ch =>
    { afterNow (afterNow u) with
      lastValid := nowTime u
      out := u.out ++ mixedEvents u.cfg ch ++ checkEvents (nowTime (afterNow u)) (nowTime u) u.cfg.failsafeTimeout
      mode := checkMode (nowTime (afterNow u)) (nowTime u) u.cfg.failsafeTimeout
      phase := .between, ret := none }

/-- R148: the state shutdown leaves. -/
def shutdownEnd (s : State) : State :=
  { s with out := s.out ++ shutdownEvents, halted := true, phase := .shutdown, ret := none }

/-- R166: the same state with an internal fault to come after `k` more injection points. -/
def withFault (k : Nat) (s : State) : State := { s with env := { s.env with faultIn := some k } }

/-- R166: the states at the injection points of a failsafe check that starts in `w`, and at the end of the cycle behind it: after the
time sample; in a stale check between and after the two stop commands; after `MODE` is written. -/
def checkPoints (w : State) : List State :=
  if nowTime w - w.lastValid > (w.cfg.failsafeTimeout : Int) then
    [afterNow w, { afterNow w with out := w.out ++ allStopEvents.take 1 }, { afterNow w with out := w.out ++ allStopEvents },
     { afterNow w with out := w.out ++ allStopEvents, mode := .failsafe }]
  else [afterNow w, { afterNow w with mode := .running }]

/-- R166: the states at the injection points of a cycle whose decode attempt ended in `u` with result `r`: at the attempt's return; on a
validated frame after `LAST_VALID` is written and between and after the two commands of the mixed pair; then those of the check. -/
def pointStates (r : Option ChannelSet) (u : State) : List State :=
  match r with
  | none => u :: checkPoints u
  | some ch =>
    let v := { afterNow u with lastValid := nowTime u }
    [u, v, { v with out := u.out ++ (mixedEvents u.cfg ch).take 1 }, { v with out := u.out ++ mixedEvents u.cfg ch }] ++
      checkPoints { v with out := u.out ++ mixedEvents u.cfg ch }

/-- Both motors are held stopped: the last command for each is `(0, stop)` (R151). -/
def HeldStopped (out : List Event) : Prop :=
  heldCommand .left out = ⟨0, .stop⟩ ∧ heldCommand .right out = ⟨0, .stop⟩

/-- A live core has released nothing and is between cycles; a halted core's history ends in the cleanup, which stands nowhere
else in it (R148, R193); the phase of a core halted by a termination is the model's choice (log entry 14). -/
def Cleanup (s : State) : Prop :=
  (s.halted = false → Event.release ∉ s.out ∧ s.phase = .between) ∧
  (s.halted = true → s.phase = .shutdown ∧ ∃ before, s.out = before ++ shutdownEvents ∧ Event.release ∉ before)

/-- The invariant of the machine between steps: every event is one the actuator port accepts (R47), the cleanup is where it
belongs (R148), FAILSAFE means both motors are held stopped (R151, R171), a recorded `OK` means `CH` has been written (R24, R98),
and no transient value is left (R33). -/
structure Inv (s : State) : Prop where
  events : ∀ e ∈ s.out, EventInRange e
  cleanup : Cleanup s
  failsafe : s.mode = .failsafe → HeldStopped s.out
  written : s.lastResult = some .ok → s.ch ≠ none
  transient : s.ret = none

/-- The transport answers every read of the next attempt in full (R74: the full-delivery transport). -/
def DeliversInFull (s : State) : Prop :=
  ∃ more, s.env.reads = List.replicate 3 (.deliver [] longestFrame) ++ more

/-- The host injects no internal fault (R166). -/
def NoInternalFault (s : State) : Prop := s.env.faultIn = none

/-- R102: a byte sequence with bit `k` flipped (bit `k mod 8` of byte `k div 8`). -/
def flipBit (k : Nat) (bs : List Byte) : List Byte := bs.modify (k / 8) (· ^^^ (1#8 <<< (k % 8)))

/-- R51, R90: how many reads an attempt makes that comes to a frame class and draws an answer for (a read of 0 bytes draws none). -/
def readsOf : Instr → Nat
  | .notSync _ => 1
  | .rcBadLength _ => 2
  | .unknownType len _ _ => if len.toNat ≤ 1 then 2 else 3
  | _ => 3

/-- R30: the phase an attempt ends in that comes to a frame class. -/
def phaseOf : Instr → Phase
  | .notSync _ => .sync
  | .rcBadLength _ => .header
  | .unknownType _ _ _ => .skip
  | _ => .validate

/-- R43, R44: the state after the reads of an attempt that were answered in full and came to the frame class `i`: the stream is
what follows the frame. -/
def fetched (i : Instr) (rest : List Byte) (s : State) : State :=
  { s with phase := phaseOf i, env := { s.env with rx := rest, reads := s.env.reads.drop (readsOf i) } }

/-- The state after reads that left `rx` and `reads` in phase `p`, with the result code of an attempt that returns "no frame". -/
def noFrame (code : ResultCode) (p : Phase) (rx : List Byte) (reads : List ReadAnswer) (s : State) : State :=
  { s with phase := p, lastResult := some code, ret := some (.frame none), env := { s.env with rx := rx, reads := reads } }

/-- R100, R165: the state after a read in phase `p` was fatal: the stream stands at `rx`, the answers after the fatal one are left. -/
def fatalRead (p : Phase) (rx : List Byte) (reads : List ReadAnswer) (s : State) : State :=
  shutdownEnd { s with phase := p, env := { s.env with rx := rx, reads := reads } }

/-- R161: the bytes consumed by a decode attempt with each result code, `c` being the bytes it consumed. -/
def ConsumedAs (c : List Byte) : ResultCode → Prop
  | .ok => c.length = 26
  | .noData => c.length = 0
  | .notSync => c.length = 1
  | .shortHeader => c.length = 1 ∨ c.length = 2
  | .unknownType => 3 ≤ c.length ∧ c.length ≤ 3 + ((c.getD 1 0).toNat - 1)
  | .badLength => c.length = 3
  | .shortBody => 3 ≤ c.length ∧ c.length ≤ 25
  | .badCrc => c.length = 26

/-- Two outcomes that agree in everything but `MODE` and `LAST_RESULT`. -/
def SameButFlags : Host.Outcome State Fault Refusal → Host.Outcome State Fault Refusal → Prop
  | .next t, .next t' => { t' with mode := t.mode, lastResult := t.lastResult } = t
  | .fault a, .fault b => a = b
  | .refused a, .refused b => a = b
  | _, _ => False

end Sys2Proof.Safety
end

