-- ==== Sys2Proof/Certificates/Slice0/Obligations.lean ====
section
/-! DEFINITION. The statements for the provers: what the rules of the spec say of the machine. -/

open Sys2Proof Sys2Proof.Machine Sys2Proof.Safety

/-! ### Encoding -/

/-- 95_test_vectors.md section 2.2: words written out from the encoding of R60 to R65 decode to the class they stand for. -/
def Obligations.SampleFramesDecode : Prop :=
  decode [0x00#8, 0xC8#8] = .instr (.notSync 0x00#8) [0xC8#8] ∧
  decode [0xC8#8, 0x04#8, 0x02#8, 0xAA#8, 0xBB#8, 0xCC#8, 0xC8#8] = .instr (.unknownType 0x04#8 0x02#8 [0xAA#8, 0xBB#8, 0xCC#8]) [0xC8#8] ∧
  decode [0xC8#8, 0x19#8, 0x16#8, 0xC8#8] = .instr (.rcBadLength 0x19#8) [0xC8#8] ∧
  decode ([0xC8#8, 0x18#8, 0x16#8] ++ List.replicate 22 0x00#8 ++ [0xEF#8]) = .instr (.rcChannels (Vector.replicate 22 0x00#8)) [] ∧
  decode ([0xC8#8, 0x18#8, 0x16#8] ++ List.replicate 22 0xFF#8 ++ [0x8F#8]) = .instr (.rcChannels (Vector.replicate 22 0xFF#8)) [] ∧
  decode ([0xC8#8, 0x18#8, 0x16#8] ++ List.replicate 22 0xFF#8 ++ [0x8E#8]) = .instr (.rcBadCrc (Vector.replicate 22 0xFF#8) 0x8E#8) [] ∧
  decode [0xC8#8, 0x18#8] = .reject .shortHeader

/-- R68: the class of the first three bytes of a candidate frame, in the priority order of the table, with the bytes left over. -/
def Obligations.ClassesFollowPriority : Prop :=
  ∀ (b0 len ty : Byte) (more : List Byte),
    decode (b0 :: len :: ty :: more) =
      if b0 ≠ 0xC8#8 then .instr (.notSync b0) (len :: ty :: more)
      else if ty ≠ 0x16#8 then .instr (.unknownType len ty (more.take (len.toNat - 1))) (more.drop (len.toNat - 1))
      else if len ≠ 0x18#8 then .instr (.rcBadLength len) more
      else if more.length < 23 then .reject .shortBody
      else if more.getD 22 0#8 ≠ crc8 (ty :: more.take 22)
        then .instr (.rcBadCrc (Vector.ofFn fun b : Fin 22 => more.getD b 0#8) (more.getD 22 0#8)) (more.drop 23)
      else .instr (.rcChannels (Vector.ofFn fun b : Fin 22 => more.getD b 0#8)) (more.drop 23)

/-- Decode and encode agree: every well-formed frame class term, encoded and followed by any bytes, decodes to itself with those
bytes left. -/
def Obligations.DecodeOfEncode : Prop :=
  ∀ (i : Instr) (e rest : List Byte), i.wf = true → encode i = some e → decode (e ++ rest) = .instr i rest

/-- What the decoder accepts is the encoding of what it answers, at the front of the stream; only a skip that runs out of bytes
answers a term that is no whole frame. -/
def Obligations.EncodeOfDecode : Prop :=
  ∀ (bs rest : List Byte) (i : Instr), decode bs = .instr i rest →
    (∃ e, encode i = some e ∧ bs = e ++ rest) ∧
    (i.wf = true ∨ rest = [] ∧ ∃ len ty skipped, i = .unknownType len ty skipped ∧ ty ≠ 0x16#8 ∧ skipped.length < len.toNat - 1)

/-- R69: on a 24-bit header word the rows of the opcode table match by mask and condition, in priority order. Every byte above the
word is 0, so a word that matches the last two rows is a frame whose checksum byte is wrong (log entry 9). The header word is the
spec's own device (D20). -/
def Obligations.TableRowsMatchByMask : Prop :=
  ∀ w : Nat, w < 2 ^ 24 →
    ((w >>> 16) &&& 0xFF ≠ 0xC8 → decodeTableWord 24 w = some (.notSync (BitVec.ofNat 8 (w >>> 16)))) ∧
    (w &&& 0xFF0000 = 0xC80000 → w &&& 0xFF ≠ 0x16 →
      decodeTableWord 24 w = some (.unknownType (BitVec.ofNat 8 (w >>> 8)) (BitVec.ofNat 8 w)
        (List.replicate ((w >>> 8) % 256 - 1) 0x00#8))) ∧
    (w &&& 0xFF00FF = 0xC80016 → (w >>> 8) &&& 0xFF ≠ 0x18 →
      decodeTableWord 24 w = some (.rcBadLength (BitVec.ofNat 8 (w >>> 8)))) ∧
    (w &&& 0xFFFFFF = 0xC81816 → decodeTableWord 24 w = some (.rcBadCrc (Vector.replicate 22 0x00#8) 0x00#8))

/-! ### Checksum -/

/-- R82: `CRC8` is the fold of the table over the bytes from 0, and writes no state of the core. -/
def Obligations.ChecksumResult : Prop :=
  ∀ (bs : List Byte) (s : State),
    exec (.crc8 bs) s = .next { s with ret := some (.byte (bs.foldl (fun c b => crcTable (c ^^^ b)) 0x00#8)) }

/-- R85: the named vector of the source. -/
def Obligations.ChecksumNamedVector : Prop :=
  ∀ s : State, exec (.crc8 [0x16#8, 0x01#8, 0x02#8]) s = .next { s with ret := some (.byte 0xCD#8) }

/-- R84: `CRC8` is linear over bytewise exclusive or of inputs of equal length, and changing any single bit of any input changes it. Both are
the spec's own derivation, from a reading of 0xD5 that is general knowledge (log entry 22, PRESUMED). -/
def Obligations.ChecksumLinearAndDetectsSingleBits : Prop :=
  (∀ (a b : List Byte), a.length = b.length → crc8 (List.zipWith (· ^^^ ·) a b) = crc8 a ^^^ crc8 b) ∧
  (∀ (bs : List Byte) (k : Nat), k < 8 * bs.length → crc8 (flipBit k bs) ≠ crc8 bs)

/-! ### Unpacker -/

/-- R66, R110: bit `j` of channel `i` is bit `11*i + j` of the stream, which is bit `(11*i + j) mod 8` of payload byte
`(11*i + j) div 8`; unpacking writes no state of the core. -/
def Obligations.UnpackReadsTheBitStream : Prop :=
  ∀ (p : Payload) (s : State), ∃ ch : ChannelSet,
    exec (.unpack p) s = .next { s with ret := some (.channels ch) } ∧
    ∀ (i j : Nat), i < 16 → j < 11 →
      (ch.toList.getD i 0#11).getLsbD j = (p.toList.getD ((11 * i + j) / 8) 0#8).getLsbD ((11 * i + j) % 8)

/-- R111: bit `j` of packed byte `b` is bit `(8*b + j) mod 11` of channel `(8*b + j) div 11`; an operand with a value above 2047 is refused.
`Pack` is the spec's own inference, the inverse of R110, and no operation the core performs. -/
def Obligations.PackWritesTheBitStream : Prop :=
  ∀ (ch : Vector Nat 16) (s : State),
    ((∀ c ∈ ch.toList, c ≤ 2047) → ∃ p : Payload,
      exec (.pack ch) s = .next { s with ret := some (.payload p) } ∧
      ∀ (b j : Nat), b < 22 → j < 8 →
        (p.toList.getD b 0#8).getLsbD j = (ch.toList.getD ((8 * b + j) / 11) 0).testBit ((8 * b + j) % 11)) ∧
    ((∃ c ∈ ch.toList, 2047 < c) → exec (.pack ch) s = .refused .packOutOfDomain)

/-- R112: packing and unpacking are a lossless round trip, both ways.
The spec derives it from R110, R111 and R67. -/
def Obligations.PackUnpackRoundTrip : Prop :=
  (∀ (ch : ChannelSet) (s : State), ∃ p : Payload,
    exec (.pack (ch.map BitVec.toNat)) s = .next { s with ret := some (.payload p) } ∧
    exec (.unpack p) s = .next { s with ret := some (.channels ch) }) ∧
  (∀ (p : Payload) (s : State), ∃ ch : ChannelSet,
    exec (.unpack p) s = .next { s with ret := some (.channels ch) } ∧
    exec (.pack (ch.map BitVec.toNat)) s = .next { s with ret := some (.payload p) })

/-- R113: payloads that differ in stream bit `k` alone unpack to ChannelSets that differ in channel `k div 11` alone; and the
command depends on the lanes `THROTTLE_CH` and `STEERING_CH` alone. -/
def Obligations.LanesAreIndependent : Prop :=
  (∀ (p q : Payload) (k : Nat), k < 176 → q.toList = flipBit k p.toList →
    ∀ i : Fin 16, ((unpack q)[i] = (unpack p)[i] ↔ i.val ≠ k / 11)) ∧
  (∀ (ch ch' : ChannelSet) (s : State),
    ch.toList.getD s.cfg.throttleCh.toNat 0#11 = ch'.toList.getD s.cfg.throttleCh.toNat 0#11 →
    ch.toList.getD s.cfg.steeringCh.toNat 0#11 = ch'.toList.getD s.cfg.steeringCh.toNat 0#11 →
    exec (.commandFromChannels ch) s = exec (.commandFromChannels ch') s)

/-! ### Mapper -/

/-- R120: the affine map of the clamped operand; at and beyond the ends of the input range it gives the ends of the output
range; with the default output range the result lies in [-100, 100]. The formula is the spec's
derivation and exact rationals are its decision D6 (log entry 13, DESIGN CHOICE). -/
def Obligations.MapResult : Prop :=
  ∀ (raw : Rat) (s : State), s.cfg.inMin < s.cfg.inMax → ∃ q : Rat,
    exec (.map raw) s = .next { s with ret := some (.number q) } ∧
    q = s.cfg.outMin + (min (max raw s.cfg.inMin) s.cfg.inMax - s.cfg.inMin) * (s.cfg.outMax - s.cfg.outMin) / (s.cfg.inMax - s.cfg.inMin) ∧
    (raw ≤ s.cfg.inMin → q = s.cfg.outMin) ∧ (s.cfg.inMax ≤ raw → q = s.cfg.outMax) ∧
    (s.cfg.outMin = -100 → s.cfg.outMax = 100 → -100 ≤ q ∧ q ≤ 100)

/-- R32: mapped values lie between the ends of the output range, whichever is the greater, and every mixer output lies in
[-100, 100], whatever the configuration. -/
def Obligations.RangesHold : Prop :=
  (∀ (c : Cfg) (raw : Rat), c.inMin < c.inMax →
    min c.outMin c.outMax ≤ mapRaw c raw ∧ mapRaw c raw ≤ max c.outMin c.outMax) ∧
  (∀ t st : Rat, (-100 ≤ (mix t st).1 ∧ (mix t st).1 ≤ 100) ∧ (-100 ≤ (mix t st).2 ∧ (mix t st).2 ≤ 100))

/-- R122: below the threshold the result is exactly 0, at or above it the value passes unchanged. -/
def Obligations.DeadzoneResult : Prop :=
  ∀ (v : Rat) (s : State),
    (|v| < s.cfg.deadzone → exec (.deadzone v) s = .next { s with ret := some (.number 0) }) ∧
    (s.cfg.deadzone ≤ |v| → exec (.deadzone v) s = .next { s with ret := some (.number v) }) ∧
    (s.cfg.deadzone ≤ 0 → exec (.deadzone v) s = .next { s with ret := some (.number v) })

/-- R123: inversion is exact negation. -/
def Obligations.InvertResult : Prop :=
  ∀ (v : Rat) (s : State),
    exec (.invert v true) s = .next { s with ret := some (.number (-v)) } ∧
    exec (.invert v false) s = .next { s with ret := some (.number v) }

/-- R124: map, then deadzone, then inversion; the last two commute; with the default output range the result lies in [-100, 100].
The commutation is
the spec's derivation, and exact rationals are its decision D6 (log entry 13). -/
def Obligations.ShapeResult : Prop :=
  ∀ (raw : Rat) (flag : Bool) (s : State), s.cfg.inMin < s.cfg.inMax → ∃ q : Rat,
    exec (.shape raw flag) s = .next { s with ret := some (.number q) } ∧
    q = invert (deadzone s.cfg (mapRaw s.cfg raw)) flag ∧
    q = deadzone s.cfg (invert (mapRaw s.cfg raw) flag) ∧
    (s.cfg.outMin = -100 → s.cfg.outMax = 100 → -100 ≤ q ∧ q ≤ 100)

/-- R9, D4: a model refuses an ill-formed configuration: `IN_MIN >= IN_MAX` where a channel is mapped or the core is reset or run
(in a live core), and a bundle with an index of 16 or more or an empty input range gives no configuration. Which operations refuse is
the model's choice (log entry 12). -/
def Obligations.IllFormedConfigurationRefused : Prop :=
  (∀ s : State, s.cfg.inMax ≤ s.cfg.inMin → s.halted = false →
    ∀ i : Instr, (i = .reset ∨ i = .run ∨ i = .cycle ∨ (∃ raw, i = .map raw) ∨ (∃ raw flag, i = .shape raw flag) ∨
      (∃ ch, i = .commandFromChannels ch)) → exec i s = .refused .illFormedConfig) ∧
  (∀ b : Bundle, (cfgOfBundle b).isSome = true ↔ b.throttleCh < 16 ∧ b.steeringCh < 16 ∧ b.inMin < b.inMax) ∧
  (∀ (b : Bundle) (c : Cfg), cfgOfBundle b = some c → c.throttleCh.toNat = b.throttleCh ∧ c.steeringCh.toNat = b.steeringCh)

/-! ### Mixer -/

/-- R130, R131: the side the steering turns to is slowed in proportion, the other keeps the throttle, both clamped to [-100, 100]. -/
def Obligations.MixResult : Prop :=
  ∀ (t st : Rat) (s : State), ∃ l r : Rat,
    exec (.mix t st) s = .next { s with ret := some (.speeds l r) } ∧
    (0 < st → l = min (max t (-100)) 100 ∧ r = min (max (t * (1 - st / 100)) (-100)) 100) ∧
    (st < 0 → l = min (max (t * (1 - |st| / 100)) (-100)) 100 ∧ r = min (max t (-100)) 100) ∧
    (st = 0 → l = min (max t (-100)) 100 ∧ r = min (max t (-100)) 100)

/-- R132: for inputs in [-100, 100] the two sides never have opposite signs, no steering gives both sides the throttle, full
steering zeroes one side and leaves the other at the throttle; and (R131) the clamp changes nothing.
That the signs never differ is
the spec's derivation, and exact rationals are its decision D6 (log entry 13). -/
def Obligations.MixIsTheProportionalTurn : Prop :=
  ∀ t st : Rat, -100 ≤ t → t ≤ 100 → -100 ≤ st → st ≤ 100 →
    0 ≤ (mix t st).1 * (mix t st).2 ∧
    mix t 0 = (t, t) ∧ mix t 100 = (t, 0) ∧ mix t (-100) = (0, t) ∧
    mix t st = (mixLeft t st, mixRight t st)

/-- R133: positive is forward, negative is reverse, zero is stop with speed 0; from a mixer output the speed lies in [0, 100]. The sign
convention is the spec's own decision D23. -/
def Obligations.SplitResult : Prop :=
  ∀ (v : Rat) (s : State), ∃ c : MotorCommand,
    exec (.split v) s = .next { s with ret := some (.command c) } ∧
    (0 < v → c = ⟨v, .forward⟩) ∧ (v < 0 → c = ⟨-v, .reverse⟩) ∧ (v = 0 → c = ⟨0, .stop⟩) ∧
    (-100 ≤ v → v ≤ 100 → 0 ≤ c.speed ∧ c.speed ≤ 100)

/-! ### Decode attempts -/

/-- R91, R94, R95, R97, R98: what each frame class does once its bytes are read: the result code, "no frame" or the new ChannelSet,
and nothing else. That a frame class's instruction is this effect, the reads being the decoder's, is the model's choice (log entry 5). -/
def Obligations.FrameClassEffects : Prop :=
  ∀ s : State, s.halted = false →
    (∀ b, exec (.notSync b) s = .next { s with lastResult := some .notSync, ret := some (.frame none) }) ∧
    (∀ len ty skipped,
      exec (.unknownType len ty skipped) s = .next { s with lastResult := some .unknownType, ret := some (.frame none) }) ∧
    (∀ len, exec (.rcBadLength len) s = .next { s with lastResult := some .badLength, ret := some (.frame none) }) ∧
    (∀ p c, exec (.rcBadCrc p c) s = .next { s with lastResult := some .badCrc, ret := some (.frame none) }) ∧
    (∀ p, exec (.rcChannels p) s =
      .next { s with ch := some (unpack p), lastResult := some .ok, ret := some (.frame (some (unpack p))) })

/-- R90 to R98 under the full-delivery transport (R74): an attempt does what the class of the stream's front does, with the stream
after that frame left; a stream that ends too early gives the code of the step it ends in, and is consumed. The request of 0 bytes for
an unknown frame of length 0 is the spec's decision D19, and that it draws no answer is log entry 17. The frame class as an instruction is
log entry 5, and the phase an attempt executed alone leaves is the model's (log entry 14). -/
def Obligations.DeliveredAttempts : Prop :=
  ∀ s : State, s.halted = false → DeliversInFull s → NoInternalFault s →
    match decode s.env.rx with
    | .instr i rest => exec .tryReadFrame s = exec i (fetched i rest s)
    | .reject .noData => exec .tryReadFrame s = .next (noFrame .noData .sync [] (s.env.reads.drop 1) s)
    | .reject .shortHeader => exec .tryReadFrame s = .next (noFrame .shortHeader .header [] (s.env.reads.drop 2) s)
    | .reject .shortBody => exec .tryReadFrame s = .next (noFrame .shortBody .body [] (s.env.reads.drop 3) s)

/-- R91, R92, R94, R96: reads that return too few bytes end the attempt where they happen, with the bytes returned consumed and lost. The phase an
attempt executed alone leaves is the model's (log entry 14). -/
def Obligations.ShortReadsEndTheAttempt : Prop :=
  ∀ (s : State) (more : List ReadAnswer) (rest : List Byte) (k k0 k1 : Nat), s.halted = false → NoInternalFault s →
    (s.env.reads = .deliver [] k :: more → (k = 0 ∨ s.env.rx = []) →
      exec .tryReadFrame s = .next (noFrame .noData .sync s.env.rx more s)) ∧
    (s.env.reads = .deliver [] (k0 + 1) :: .deliver [] k :: more → s.env.rx = 0xC8#8 :: rest → min k rest.length < 2 →
      exec .tryReadFrame s = .next (noFrame .shortHeader .header (rest.drop k) more s)) ∧
    (∀ len ty : Byte, s.env.reads = .deliver [] (k0 + 1) :: .deliver [] (k1 + 2) :: .deliver [] k :: more →
      s.env.rx = 0xC8#8 :: len :: ty :: rest → ty ≠ 0x16#8 → 1 < len.toNat →
      exec .tryReadFrame s = .next (noFrame .unknownType .skip (rest.drop (min (len.toNat - 1) k)) more s)) ∧
    (s.env.reads = .deliver [] (k0 + 1) :: .deliver [] (k1 + 2) :: .deliver [] k :: more →
      s.env.rx = 0xC8#8 :: 0x18#8 :: 0x16#8 :: rest → min k rest.length < 23 →
      exec .tryReadFrame s = .next (noFrame .shortBody .body (rest.drop k) more s))

/-- R100, R46, R165: a fatal answer to any read of an attempt ends it at that read, in the attempt alone and in a whole cycle: `CH` and
`LAST_RESULT` are not written, no further answer is drawn, the cleanup runs (the spec's decision D22). -/
def Obligations.FatalReadShutsDown : Prop :=
  ∀ (s : State) (more : List ReadAnswer) (rest : List Byte) (len ty : Byte) (k0 k1 : Nat) (i : Instr),
    s.halted = false → s.cfg.inMin < s.cfg.inMax → NoInternalFault s → (i = .tryReadFrame ∨ i = .cycle) →
    (s.env.reads = .fatal :: more → exec i s = .next (fatalRead .sync s.env.rx more s)) ∧
    (s.env.reads = .deliver [] (k0 + 1) :: .fatal :: more → s.env.rx = 0xC8#8 :: rest →
      exec i s = .next (fatalRead .header rest more s)) ∧
    (s.env.reads = .deliver [] (k0 + 1) :: .deliver [] (k1 + 2) :: .fatal :: more →
      s.env.rx = 0xC8#8 :: len :: ty :: rest → ty ≠ 0x16#8 → 1 < len.toNat →
      exec i s = .next (fatalRead .skip rest more s)) ∧
    (s.env.reads = .deliver [] (k0 + 1) :: .deliver [] (k1 + 2) :: .fatal :: more →
      s.env.rx = 0xC8#8 :: 0x18#8 :: 0x16#8 :: rest →
      exec i s = .next (fatalRead .body rest more s))

/-- R101, R163, R98: whatever the transport answers, a decode attempt in a live core completes; it leaves `LAST_VALID`, `MODE` and `CFG`
alone; if it returns, it emits nothing, and it writes `CH` exactly when it returns the ChannelSet written; if a fatal fault ended it,
neither `CH` nor `LAST_RESULT` is written. That a fatal
fault leaves `LAST_RESULT` unwritten is R100 by the spec's decision D22, and that no internal fault falls between the writes of `CH` and
`LAST_RESULT` is the model's choice (log entry 7). -/
def Obligations.DecodeAttemptFrame : Prop :=
  ∀ s : State, s.halted = false → ∃ t : State, exec .tryReadFrame s = .next t ∧
    t.lastValid = s.lastValid ∧ t.mode = s.mode ∧ t.cfg = s.cfg ∧
    ((t.halted = false ∧ t.out = s.out ∧ t.ret = some (.frame none) ∧ t.ch = s.ch ∧ t.lastResult ≠ some .ok ∧ t.lastResult ≠ none) ∨
     (t.halted = false ∧ t.out = s.out ∧ t.lastResult = some .ok ∧ ∃ p, t.ch = some (unpack p) ∧ t.ret = some (.frame (some (unpack p)))) ∨
     (t.halted = true ∧ t.out = s.out ++ shutdownEvents ∧ t.ch = s.ch ∧ t.lastResult = s.lastResult ∧ t.ret = none))

/-- R99, R161: the bytes a decode attempt consumes, by its result code, whatever number of bytes each read returns. -/
def Obligations.BytesConsumedByResult : Prop :=
  ∀ (s : State) (k0 k1 k2 : Nat) (more : List ReadAnswer), s.halted = false → NoInternalFault s →
    s.env.reads = .deliver [] k0 :: .deliver [] k1 :: .deliver [] k2 :: more →
    ∃ (t : State) (c : List Byte) (code : ResultCode), exec .tryReadFrame s = .next t ∧
      t.lastResult = some code ∧ s.env.rx = c ++ t.env.rx ∧ ConsumedAs c code

/-- R102: flipping any single bit of a validated frame makes the attempt return "no frame": in byte 0 `NF_NOT_SYNC`, in byte 1
`NF_BAD_LENGTH`, in byte 2 `NF_UNKNOWN_TYPE`, in bytes 3 to 25 `NF_BAD_CRC`. The
spec derives this from R91, R94, R95, R97 and R84 (log entry 22). -/
def Obligations.SingleBitMutationIsRejected : Prop :=
  ∀ (s : State) (p : Payload) (f rest : List Byte) (k : Nat), s.halted = false → DeliversInFull s → NoInternalFault s →
    encode (.rcChannels p) = some f → k < 208 → s.env.rx = flipBit k f ++ rest →
    ∃ t : State, exec .tryReadFrame s = .next t ∧ t.ret = some (.frame none) ∧ t.ch = s.ch ∧
      t.lastResult = some (if k < 8 then .notSync else if k < 16 then .badLength else if k < 24 then .unknownType else .badCrc)

/-- R103: an unknown-type frame whose length byte is right, followed by a validated frame, all of it delivered: the first attempt
consumes exactly the unknown frame, the second returns the validated frame's channels.
The spec derives this from R94 and R98. -/
def Obligations.FrameAfterUnknownFrameDecodes : Prop :=
  ∀ (s : State) (len ty : Byte) (skipped f rest : List Byte) (p : Payload) (more : List ReadAnswer),
    s.halted = false → NoInternalFault s → s.env.reads = List.replicate 6 (.deliver [] 257) ++ more →
    ty ≠ 0x16#8 → len.toNat = skipped.length + 1 → encode (.rcChannels p) = some f →
    s.env.rx = (0xC8#8 :: len :: ty :: skipped) ++ f ++ rest →
    ∃ t u : State, exec .tryReadFrame s = .next t ∧ t.ret = some (.frame none) ∧ t.lastResult = some .unknownType ∧
      t.env.rx = f ++ rest ∧
      exec .tryReadFrame t = .next u ∧ u.ret = some (.frame (some (unpack p))) ∧ u.ch = some (unpack p) ∧ u.env.rx = rest

/-! ### Control loop and supervisor -/

/-- R142, R143: the throttle and steering lanes are shaped and mixed, and the pair is emitted, left first by the spec's decision D18. An
internal fault to come that does not strike between the two commands is one injection point nearer after it, by the model's placing and
counting of faults (log entries 7 and 8). The phase it leaves is the model's (log entry 14). -/
def Obligations.CommandFromChannelsResult : Prop :=
  ∀ (ch : ChannelSet) (s : State), s.halted = false → s.cfg.inMin < s.cfg.inMax → s.env.faultIn ≠ some 0 →
    ∀ th st : Rat,
      th = shape s.cfg ((ch.toList.getD s.cfg.throttleCh.toNat 0#11).toNat : Rat) s.cfg.invertThrottle →
      st = shape s.cfg ((ch.toList.getD s.cfg.steeringCh.toNat 0#11).toNat : Rat) s.cfg.invertSteering →
      exec (.commandFromChannels ch) s = .next { s with
        out := s.out ++ [.motor .left (split (mix th st).1).speed (split (mix th st).1).dir,
                         .motor .right (split (mix th st).2).speed (split (mix th st).2).dir]
        phase := .command, ret := none, env := { s.env with faultIn := s.env.faultIn.map (· - 1) } }

/-- R145: the check takes one sample; if the elapsed time exceeds the timeout it emits the all-stop pair and writes FAILSAFE, otherwise
it emits nothing and writes RUNNING, whatever `MODE` was (R147). Signed elapsed time and the order and speed 0 of the stop pair are the
spec's decisions D7, D18, D23; the phase it leaves is the model's (log entry 14). -/
def Obligations.FailsafeCheckResult : Prop :=
  ∀ (s : State) (tC : Time) (more : List Time), s.halted = false → NoInternalFault s → s.env.times = tC :: more →
    (tC - s.lastValid > (s.cfg.failsafeTimeout : Int) →
      exec .failsafeCheck s = .next { s with
        out := s.out ++ [.motor .left 0 .stop, .motor .right 0 .stop]
        mode := .failsafe, phase := .check, ret := none, env := { s.env with times := more } }) ∧
    (tC - s.lastValid ≤ (s.cfg.failsafeTimeout : Int) →
      exec .failsafeCheck s = .next { s with mode := .running, phase := .check, ret := none, env := { s.env with times := more } })

/-- R148: all-stop, then release, then `HALTED`, the order by the spec's decision D12; the phase it leaves is the model's (log entry 14). -/
def Obligations.ShutdownResult : Prop :=
  ∀ s : State, s.halted = false →
    exec .shutdown s = .next { s with
      out := s.out ++ [.motor .left 0 .stop, .motor .right 0 .stop, .release], halted := true, phase := .shutdown, ret := none }

/-- R180, R34: the reset sequence (the spec's decisions D10 to D14); that it may start a new run from a halted core is the model's
choice (log entry 11). That the counts to a termination and to an internal fault stand on into
the new run is the model's choice too (log entry 26). -/
def Obligations.ResetResult : Prop :=
  ∀ (s : State) (t0 : Time) (more : List Time), s.cfg.inMin < s.cfg.inMax → s.env.times = t0 :: more →
    exec .reset s = .next { s with
      ch := none, lastResult := none, mode := .running, halted := false, out := [], phase := .between, lastValid := t0, ret := none
      env := { s.env with times := more } }

/-- R34, R35: the reset values the spec states, in `State.reset`. -/
def Obligations.ResetValues : Prop :=
  State.reset.ch = none ∧ State.reset.mode = .running ∧ State.reset.halted = false ∧ State.reset.lastResult = none ∧
  State.reset.out = [] ∧ State.reset.phase = .between ∧
  State.reset.cfg.inMin = 172 ∧ State.reset.cfg.inMax = 1811 ∧ State.reset.cfg.outMin = -100 ∧ State.reset.cfg.outMax = 100 ∧
  State.reset.cfg.failsafeTimeout = 500000

/-- R150, R141, R146: the events one cycle appends and the mode after, by the decode's result and the staleness of the check, whatever
the transport answered: a cycle whose attempt (after which the core is live) ended in `u` ends as the table says. The two samples are
the spec's decision D24. -/
def Obligations.CycleEvents : Prop :=
  ∀ (s u : State) (r : Option ChannelSet), s.halted = false → s.cfg.inMin < s.cfg.inMax → NoInternalFault s →
    exec .tryReadFrame s = .next u → u.halted = false → u.ret = some (.frame r) →
    exec .cycle s = .next (cycleEnd r u)

/-- R141: a cycle completes with its own effect whatever the stream holds, when the reads are answered in full and no internal fault is
injected; and so does a turn of the loop when no termination is asserted. -/
def Obligations.CycleCompletes : Prop :=
  ∀ s : State, s.halted = false → s.cfg.inMin < s.cfg.inMax → DeliversInFull s → NoInternalFault s →
    ∃ (u : State) (r : Option ChannelSet), exec .tryReadFrame s = .next u ∧ u.halted = false ∧ u.ret = some (.frame r) ∧
      exec .cycle s = .next (cycleEnd r u) ∧ (s.env.termIn = none → exec .run s = .next (cycleEnd r u))

/-- R140: one turn of the loop samples the termination signal once; it shuts down or runs one cycle. That one turn is
one step is the model's choice (log entries 4 and 8). The phase SHUTDOWN after a
termination between cycles is the model's choice too (log entry 14). -/
def Obligations.RunTurn : Prop :=
  ∀ s : State, s.halted = false → s.cfg.inMin < s.cfg.inMax →
    (s.env.termIn = some 0 → exec .run s = .next (shutdownEnd s)) ∧
    (s.env.termIn = none → exec .run s = exec .cycle s) ∧
    (∀ k, s.env.termIn = some (k + 1) → exec .run s = exec .cycle { s with env := { s.env with termIn := some k } })

/-- R140, R149, R193: a turn of the loop, and a cycle, always completes in a live, well-configured core, whatever the environment answers:
either the core is between cycles again, or it has shut down. The phase SHUTDOWN
after a termination between cycles is the model's choice (log entry 14). -/
def Obligations.RunAlwaysCompletes : Prop :=
  ∀ (s : State) (i : Instr), s.halted = false → s.cfg.inMin < s.cfg.inMax → (i = .run ∨ i = .cycle) →
    ∃ t : State, exec i s = .next t ∧ t.ret = none ∧
      ((t.halted = false ∧ t.phase = .between) ∨ (t.halted = true ∧ t.phase = .shutdown))

/-- A step runs the decoded instruction: when the front of the stream decodes to a well-formed frame class `i`, the transport delivers,
no termination is asserted and no internal fault is injected, the step is `exec i` on the state the reads leave, and then the rest of
the cycle (R141) on what it returned. -/
def Obligations.StepRunsTheDecodedFrame : Prop :=
  ∀ (s : State) (i : Instr) (rest : List Byte), s.halted = false → s.cfg.inMin < s.cfg.inMax →
    s.env.termIn = none → DeliversInFull s → NoInternalFault s → decode s.env.rx = .instr i rest → i.wf = true →
    ∃ (u : State) (r : Option ChannelSet), exec i (fetched i rest s) = .next u ∧ u.ret = some (.frame r) ∧
      step s = .next (cycleEnd r u)

/-- R166, R165: an internal fault between the two `SetMotor` calls of a pair leaves the left command of the pair in the history; the
cleanup follows. It holds of the mixed pair and of the all-stop pair of a stale failsafe check, whose time sample has a point of its
own before the pair. Where a fault can strike is the spec's decision D25 and the model's placing of it (log entry 7). -/
def Obligations.InternalFaultInsideThePair : Prop :=
  (∀ (ch : ChannelSet) (s : State), s.halted = false → s.cfg.inMin < s.cfg.inMax → s.env.faultIn = some 0 →
    exec (.commandFromChannels ch) s = .next (shutdownEnd { s with
      out := s.out ++ (mixedEvents s.cfg ch).take 1, env := { s.env with faultIn := none } })) ∧
  (∀ s : State, s.halted = false → s.env.faultIn = some 1 → nowTime s - s.lastValid > (s.cfg.failsafeTimeout : Int) →
    exec .failsafeCheck s = .next (shutdownEnd { s with
      out := s.out ++ [.motor .left 0 .stop], env := { (afterNow s).env with faultIn := none } }))

/-- R165, R166, R149: an internal fault in a cycle, by the number of injection points passed before it. Let the attempt of the undisturbed
cycle end in `u`. The first `m` points lie before the attempt's return: a fault there leaves the core as it was, but for what the reads
consumed. The next points are those of `pointStates`, in order: a fault at one of them leaves exactly the state and the events of that
point, then the cleanup. A fault still to come when the cycle ends leaves it undisturbed, with the points passed counted off. If the
attempt itself meets a fatal read, no fault changes the end. Where the points lie is the spec's decision D25 and log entry 7. -/
def Obligations.InternalFaultIsPrecise : Prop :=
  ∀ s u : State, s.halted = false → s.cfg.inMin < s.cfg.inMax → NoInternalFault s → exec .tryReadFrame s = .next u →
    (u.halted = true → ∀ k, ∃ e, exec .cycle (withFault k s) = .next (shutdownEnd { s with env := e })) ∧
    (∀ r, u.halted = false → u.ret = some (.frame r) → ∃ m,
      (∀ k < m, ∃ e, exec .cycle (withFault k s) = .next (shutdownEnd { s with env := e })) ∧
      (∀ k p, (pointStates r u)[k]? = some p → exec .cycle (withFault (m + k) s) = .next (shutdownEnd p)) ∧
      (∀ k, exec .cycle (withFault (m + (pointStates r u).length + k) s) = .next (withFault k (cycleEnd r u))))

/-- R151: after the last validated frame, while no cycle validates one and the core runs, every cycle whose check is later than the
timeout after it emits the all-stop pair and ends in FAILSAFE, and from the first such cycle on both motors are held stopped; the
other cycles emit nothing. -/
def Obligations.LinkLossBound : Prop :=
  ∀ (n : Nat) (run : Nat → State),
    (∀ k < n, step (run k) = .next (run (k + 1)) ∧ (run (k + 1)).halted = false ∧ (run (k + 1)).lastResult ≠ some .ok) →
    ∀ k < n,
      (nowTime (run k) > (run 0).lastValid + ((run 0).cfg.failsafeTimeout : Int) →
        (run (k + 1)).out = (run k).out ++ allStopEvents ∧ (run (k + 1)).mode = .failsafe ∧
        ∀ m, k < m → m ≤ n → HeldStopped (run m).out) ∧
      (nowTime (run k) ≤ (run 0).lastValid + ((run 0).cfg.failsafeTimeout : Int) →
        (run (k + 1)).out = (run k).out ∧ (run (k + 1)).mode = .running)

/-! ### Whole-machine rules -/

/-- R27, R193: in a halted core no cycle runs and no operation of the decoder or the control loop is enabled; that this is a fault named
`halted` is the model's choice (log entry 11). -/
def Obligations.HaltedCoreIsStuck : Prop :=
  ∀ s : State, s.halted = true →
    step s = .fault .halted ∧
    ∀ i : Instr, (i = .tryReadFrame ∨ i = .run ∨ i = .cycle ∨ i = .failsafeCheck ∨ i = .shutdown ∨
      (∃ ch, i = .commandFromChannels ch) ∨ (∃ e, encode i = some e)) → exec i s = .fault .halted

/-- R24: `CH` is never read before it is written: no instruction ends in that fault. -/
def Obligations.ChannelsNeverReadUnwritten : Prop :=
  ∀ (i : Instr) (s : State), exec i s ≠ .fault .unwrittenChannels

/-- R21, R25, R26, R27, R31: who writes what, over all instructions. `CFG` has no writer; `CH` is written by the accept step (all 16
registers at once) and cleared by reset; `LAST_VALID` by reset and by a cycle that validated a frame; `MODE` by the failsafe check and
by reset; `HALTED` becomes true only with the events of shutdown. That reset clears it
is R180's (log entry 11). -/
def Obligations.WritersOfTheState : Prop :=
  ∀ (i : Instr) (s t : State), exec i s = .next t →
    t.cfg = s.cfg ∧
    (t.ch = s.ch ∨ (i = .reset ∧ t.ch = none) ∨
      (((∃ p, i = .rcChannels p) ∨ i = .tryReadFrame ∨ i = .cycle ∨ i = .run) ∧ t.lastResult = some .ok ∧ ∃ p, t.ch = some (unpack p))) ∧
    (t.lastValid = s.lastValid ∨ i = .reset ∨ ((i = .cycle ∨ i = .run) ∧ t.lastResult = some .ok)) ∧
    (t.mode = s.mode ∨ i = .failsafeCheck ∨ i = .cycle ∨ i = .run ∨ (i = .reset ∧ t.mode = .running)) ∧
    (t.halted = s.halted ∨ (i = .reset ∧ t.halted = false) ∨
      (t.halted = true ∧ ∃ es, t.out = s.out ++ es ++ shutdownEvents ∧ Event.release ∉ es))

/-- R29: `OUT` only grows: every instruction but the reset of a new run appends to it. -/
def Obligations.HistoryOnlyGrows : Prop :=
  ∀ (i : Instr) (s t : State), exec i s = .next t → i ≠ .reset → s.out <+: t.out

/-- R26, R28: `MODE` and `LAST_RESULT` decide nothing: changing them in any state changes no outcome but for their own values. -/
def Obligations.ModeAndResultDecideNothing : Prop :=
  ∀ (i : Instr) (s : State) (m : Mode) (r : Option ResultCode),
    SameButFlags (exec i s) (exec i { s with mode := m, lastResult := r }) ∧
    SameButFlags (step s) (step { s with mode := m, lastResult := r })

/-- The invariant of the machine holds at reset. Its clauses on the phase of
a halted core and on the speed 0 of a stop are log entries 14 and 19. -/
def Obligations.InvariantAtReset : Prop := Inv State.reset

/-- The invariant of the machine (R24, R33, R47, R148, R151): every step from a state that meets it gives a state that meets it. That
a core halted by a termination is in phase SHUTDOWN is the model's choice (log entry 14), and that a command is a stop exactly with speed 0 is the spec's
decision D23 (log entry 19). -/
def Obligations.InvariantKeptByEveryStep : Prop :=
  ∀ s t : State, Inv s → step s = .next t → Inv t
end

