-- ==== Sys2Proof/Laws/Codec.lean ====
section
/-! SUPPORT. The checksum, the payload's bit layout and the decoder's parts: one lemma each, so that no proof unfolds a checksum
over symbolic bytes. -/

namespace Sys2Proof.Machine

/-! ### Checksum -/

/-- The polynomial division is linear over exclusive or. -/
theorem crcShift_xor (a b : Byte) : crcShift (a ^^^ b) = crcShift a ^^^ crcShift b := by
  have key : ∀ x : Byte, crcShift x = (x <<< 1) ^^^ (if x.getLsbD 7 then 0xD5#8 else 0#8) := by
    intro x
    unfold crcShift
    split <;> simp
  have lin : ∀ p q : Bool, (if (p ^^ q) then 0xD5#8 else 0#8) = (if p then 0xD5#8 else 0#8) ^^^ (if q then 0xD5#8 else 0#8) := by
    decide
  rw [key, key, key, BitVec.shiftLeft_xor_distrib, BitVec.getLsbD_xor, lin]
  ac_rfl

theorem crcTable_xor (a b : Byte) : crcTable (a ^^^ b) = crcTable a ^^^ crcTable b := by
  simp [crcTable, crcShift8, crcShift_xor]

theorem crcTable_eq_zero : ∀ a : Byte, crcTable a = 0#8 → a = 0#8 := by decide +kernel

/-- No two table entries are equal. -/
theorem crcTable_injective {a b : Byte} (h : crcTable a = crcTable b) : a = b :=
  BitVec.xor_eq_zero_iff.mp (crcTable_eq_zero (a ^^^ b) (by rw [crcTable_xor, h, BitVec.xor_self]))

theorem crcFrom_append (c : Byte) (a b : List Byte) : crcFrom c (a ++ b) = crcFrom (crcFrom c a) b := by
  induction a generalizing c with
  | nil => rfl
  | cons x a ih => exact ih _

/-- Different running values stay different. -/
theorem crcFrom_injective (bs : List Byte) : ∀ c d, crcFrom c bs = crcFrom d bs → c = d := by
  induction bs with
  | nil => exact fun _ _ h => h
  | cons b bs ih => exact fun c d h => (BitVec.xor_left_inj _).mp (crcTable_injective (ih _ _ h))

/-! ### Flipping a bit -/

theorem flipBit_cons_of_lt {k : Nat} (h : k < 8) (b : Byte) (bs : List Byte) :
    Safety.flipBit k (b :: bs) = (b ^^^ (1#8 <<< k)) :: bs := by
  simp [Safety.flipBit, Nat.div_eq_of_lt h, Nat.mod_eq_of_lt h]

theorem flipBit_cons_of_ge {k : Nat} (h : 8 ≤ k) (b : Byte) (bs : List Byte) :
    Safety.flipBit k (b :: bs) = b :: Safety.flipBit (k - 8) bs := by
  have e : k / 8 = (k - 8) / 8 + 1 := by omega
  have e' : (k - 8) % 8 = k % 8 := by omega
  simp [Safety.flipBit, e, e']

@[simp] theorem flipBit_length (k : Nat) (bs : List Byte) : (Safety.flipBit k bs).length = bs.length := by
  simp [Safety.flipBit]

/-! ### Bit layout -/

/-- Fields of one width side by side keep their bits. -/
theorem testBit_joinFields (w : Nat) (hw : 0 < w) (l : List Nat) (h : ∀ x ∈ l, x < 2 ^ w) (n : Nat) :
    (joinFields w l).testBit n = (l.getD (n / w) 0).testBit (n % w) := by
  induction l generalizing n with
  | nil => simp [joinFields]
  | cons x xs ih =>
    have hx : x < 2 ^ w := h x (by simp)
    simp only [joinFields]
    rw [Nat.add_comm, Nat.shiftLeft_add_eq_or_of_lt hx, Nat.testBit_or, Nat.testBit_shiftLeft]
    rcases Nat.lt_or_ge n w with hn | hn
    · simp [Nat.div_eq_of_lt hn, Nat.mod_eq_of_lt hn, Nat.not_le.mpr hn]
    · have : x.testBit n = false := Nat.testBit_lt_two_pow (hx.trans_le (Nat.pow_le_pow_right (by omega) hn))
      rw [this, ih (fun y hy => h y (by simp [hy]))]
      have e : n / w = (n - w) / w + 1 := by rw [Nat.div_eq_sub_div hw hn]
      have e2 : n % w = (n - w) % w := by rw [Nat.mod_eq_sub_mod hn]
      simp [hn, e, ← e2]

theorem testBit_fieldAt {w j : Nat} (i P : Nat) (hj : j < w) : (fieldAt w i P).testBit j = P.testBit (w * i + j) := by
  simp [fieldAt, Nat.testBit_mod_two_pow, hj, Nat.testBit_shiftRight]

/-! ### The body of an RC-channels frame -/

@[simp] theorem payloadOf_append (p : Payload) (c : Byte) (rest : List Byte) : payloadOf (p.toList ++ (c :: rest)) = p := by
  unfold payloadOf
  ext i hi
  simp [List.getElem?_append]

@[simp] theorem checksumOf_append (p : Payload) (c : Byte) (rest : List Byte) : checksumOf (p.toList ++ (c :: rest)) = c := by
  unfold checksumOf
  simp

/-- A body of 23 bytes is its payload and its checksum byte. -/
theorem payloadOf_toList_append (l : List Byte) (h : l.length = 23) : (payloadOf l).toList ++ [checksumOf l] = l := by
  have h2 : (payloadOf l).toList = l.take 22 := by
    apply List.ext_getElem
    · simp [h]
    · intro i h1 _
      simp at h1
      simp [payloadOf, List.getElem?_eq_getElem (show i < l.length by omega)]
  have h3 : [checksumOf l] = l.drop 22 := by
    apply List.ext_getElem
    · simp [h]
    · intro i h1 _
      simp at h1
      subst h1
      simp [checksumOf, List.getElem?_eq_getElem (show 22 < l.length by omega)]
  rw [h2, h3, List.take_append_drop]

/-- The class of a body encodes to that body behind the good header, and is well formed. -/
theorem classifyBody_encode (l : List Byte) (h : l.length = 23) :
    encode (classifyBody l).instr = some (syncByte :: rcLength :: rcType :: l) ∧ (classifyBody l).instr.wf = true := by
  unfold classifyBody
  split
  · next hc =>
    refine ⟨?_, rfl⟩
    simp only [FrameClass.instr, encode]
    rw [hc, payloadOf_toList_append l h]
  · next hc =>
    refine ⟨?_, ?_⟩
    · simp only [FrameClass.instr, encode]
      rw [payloadOf_toList_append l h]
    · simp only [FrameClass.instr, Instr.wf, bne_iff_ne]
      exact fun h' => hc h'.symm

/-! ### The stages of the decoder -/

theorem decode_notSync {b : Byte} (h : b ≠ syncByte) (rest : List Byte) : decode (b :: rest) = .instr (.notSync b) rest := by
  simp [decode, h]

theorem decode_sync (len ty : Byte) (more : List Byte) : decode (syncByte :: len :: ty :: more) = decodeHeader len ty more := by
  simp [decode]

theorem decodeHeader_unknown {len ty : Byte} (h : ty ≠ rcType) (rest : List Byte) :
    decodeHeader len ty rest = .instr (.unknownType len ty (rest.take (skipCount len))) (rest.drop (skipCount len)) := by
  simp [decodeHeader, h]

theorem decodeHeader_badLength {len : Byte} (h : len ≠ rcLength) (rest : List Byte) :
    decodeHeader len rcType rest = .instr (.rcBadLength len) rest := by
  simp [decodeHeader, h]

theorem decodeHeader_short {rest : List Byte} (h : rest.length < bodyCount) :
    decodeHeader rcLength rcType rest = .reject .shortBody := by
  simp [decodeHeader, h]

theorem decodeHeader_body (body rest : List Byte) (h : body.length = 23) :
    decodeHeader rcLength rcType (body ++ rest) = .instr (classifyBody body).instr rest := by
  have h1 : ¬ (body ++ rest).length < bodyCount := by
    rw [List.length_append, h]
    exact Nat.not_lt.mpr (Nat.le_add_right 23 _)
  have h2 : (body ++ rest).take bodyCount = body := List.take_left' h
  have h3 : (body ++ rest).drop bodyCount = rest := List.drop_left' h
  unfold decodeHeader
  rw [if_neg (not_not.mpr rfl), if_neg (not_not.mpr rfl), if_neg h1, h2, h3]

end Sys2Proof.Machine
end

