-- ==== Sys2Proof/Laws/State.lean ====
section
/-! SUPPORT. One lemma per field per update of the state, so that no proof unfolds a record update. -/

namespace Sys2Proof.Machine

variable (s : State)

@[simp] theorem State.setCh_ch (v : ChannelSet) : (s.setCh v).ch = some v := rfl
@[simp] theorem State.setCh_lastValid (v : ChannelSet) : (s.setCh v).lastValid = s.lastValid := rfl
@[simp] theorem State.setCh_mode (v : ChannelSet) : (s.setCh v).mode = s.mode := rfl
@[simp] theorem State.setCh_halted (v : ChannelSet) : (s.setCh v).halted = s.halted := rfl
@[simp] theorem State.setCh_lastResult (v : ChannelSet) : (s.setCh v).lastResult = s.lastResult := rfl
@[simp] theorem State.setCh_out (v : ChannelSet) : (s.setCh v).out = s.out := rfl
@[simp] theorem State.setCh_phase (v : ChannelSet) : (s.setCh v).phase = s.phase := rfl
@[simp] theorem State.setCh_cfg (v : ChannelSet) : (s.setCh v).cfg = s.cfg := rfl
@[simp] theorem State.setCh_ret (v : ChannelSet) : (s.setCh v).ret = s.ret := rfl
@[simp] theorem State.setCh_env (v : ChannelSet) : (s.setCh v).env = s.env := rfl

@[simp] theorem State.setLastValid_ch (v : Time) : (s.setLastValid v).ch = s.ch := rfl
@[simp] theorem State.setLastValid_lastValid (v : Time) : (s.setLastValid v).lastValid = v := rfl
@[simp] theorem State.setLastValid_mode (v : Time) : (s.setLastValid v).mode = s.mode := rfl
@[simp] theorem State.setLastValid_halted (v : Time) : (s.setLastValid v).halted = s.halted := rfl
@[simp] theorem State.setLastValid_lastResult (v : Time) : (s.setLastValid v).lastResult = s.lastResult := rfl
@[simp] theorem State.setLastValid_out (v : Time) : (s.setLastValid v).out = s.out := rfl
@[simp] theorem State.setLastValid_phase (v : Time) : (s.setLastValid v).phase = s.phase := rfl
@[simp] theorem State.setLastValid_cfg (v : Time) : (s.setLastValid v).cfg = s.cfg := rfl
@[simp] theorem State.setLastValid_ret (v : Time) : (s.setLastValid v).ret = s.ret := rfl
@[simp] theorem State.setLastValid_env (v : Time) : (s.setLastValid v).env = s.env := rfl

@[simp] theorem State.setMode_ch (v : Mode) : (s.setMode v).ch = s.ch := rfl
@[simp] theorem State.setMode_lastValid (v : Mode) : (s.setMode v).lastValid = s.lastValid := rfl
@[simp] theorem State.setMode_mode (v : Mode) : (s.setMode v).mode = v := rfl
@[simp] theorem State.setMode_halted (v : Mode) : (s.setMode v).halted = s.halted := rfl
@[simp] theorem State.setMode_lastResult (v : Mode) : (s.setMode v).lastResult = s.lastResult := rfl
@[simp] theorem State.setMode_out (v : Mode) : (s.setMode v).out = s.out := rfl
@[simp] theorem State.setMode_phase (v : Mode) : (s.setMode v).phase = s.phase := rfl
@[simp] theorem State.setMode_cfg (v : Mode) : (s.setMode v).cfg = s.cfg := rfl
@[simp] theorem State.setMode_ret (v : Mode) : (s.setMode v).ret = s.ret := rfl
@[simp] theorem State.setMode_env (v : Mode) : (s.setMode v).env = s.env := rfl

@[simp] theorem State.setHalted_ch (v : Bool) : (s.setHalted v).ch = s.ch := rfl
@[simp] theorem State.setHalted_lastValid (v : Bool) : (s.setHalted v).lastValid = s.lastValid := rfl
@[simp] theorem State.setHalted_mode (v : Bool) : (s.setHalted v).mode = s.mode := rfl
@[simp] theorem State.setHalted_halted (v : Bool) : (s.setHalted v).halted = v := rfl
@[simp] theorem State.setHalted_lastResult (v : Bool) : (s.setHalted v).lastResult = s.lastResult := rfl
@[simp] theorem State.setHalted_out (v : Bool) : (s.setHalted v).out = s.out := rfl
@[simp] theorem State.setHalted_phase (v : Bool) : (s.setHalted v).phase = s.phase := rfl
@[simp] theorem State.setHalted_cfg (v : Bool) : (s.setHalted v).cfg = s.cfg := rfl
@[simp] theorem State.setHalted_ret (v : Bool) : (s.setHalted v).ret = s.ret := rfl
@[simp] theorem State.setHalted_env (v : Bool) : (s.setHalted v).env = s.env := rfl

@[simp] theorem State.setLastResult_ch (v : ResultCode) : (s.setLastResult v).ch = s.ch := rfl
@[simp] theorem State.setLastResult_lastValid (v : ResultCode) : (s.setLastResult v).lastValid = s.lastValid := rfl
@[simp] theorem State.setLastResult_mode (v : ResultCode) : (s.setLastResult v).mode = s.mode := rfl
@[simp] theorem State.setLastResult_halted (v : ResultCode) : (s.setLastResult v).halted = s.halted := rfl
@[simp] theorem State.setLastResult_lastResult (v : ResultCode) : (s.setLastResult v).lastResult = some v := rfl
@[simp] theorem State.setLastResult_out (v : ResultCode) : (s.setLastResult v).out = s.out := rfl
@[simp] theorem State.setLastResult_phase (v : ResultCode) : (s.setLastResult v).phase = s.phase := rfl
@[simp] theorem State.setLastResult_cfg (v : ResultCode) : (s.setLastResult v).cfg = s.cfg := rfl
@[simp] theorem State.setLastResult_ret (v : ResultCode) : (s.setLastResult v).ret = s.ret := rfl
@[simp] theorem State.setLastResult_env (v : ResultCode) : (s.setLastResult v).env = s.env := rfl

@[simp] theorem State.emit_ch (e : Event) : (s.emit e).ch = s.ch := rfl
@[simp] theorem State.emit_lastValid (e : Event) : (s.emit e).lastValid = s.lastValid := rfl
@[simp] theorem State.emit_mode (e : Event) : (s.emit e).mode = s.mode := rfl
@[simp] theorem State.emit_halted (e : Event) : (s.emit e).halted = s.halted := rfl
@[simp] theorem State.emit_lastResult (e : Event) : (s.emit e).lastResult = s.lastResult := rfl
@[simp] theorem State.emit_out (e : Event) : (s.emit e).out = s.out ++ [e] := rfl
@[simp] theorem State.emit_phase (e : Event) : (s.emit e).phase = s.phase := rfl
@[simp] theorem State.emit_cfg (e : Event) : (s.emit e).cfg = s.cfg := rfl
@[simp] theorem State.emit_ret (e : Event) : (s.emit e).ret = s.ret := rfl
@[simp] theorem State.emit_env (e : Event) : (s.emit e).env = s.env := rfl

@[simp] theorem State.setPhase_ch (v : Phase) : (s.setPhase v).ch = s.ch := rfl
@[simp] theorem State.setPhase_lastValid (v : Phase) : (s.setPhase v).lastValid = s.lastValid := rfl
@[simp] theorem State.setPhase_mode (v : Phase) : (s.setPhase v).mode = s.mode := rfl
@[simp] theorem State.setPhase_halted (v : Phase) : (s.setPhase v).halted = s.halted := rfl
@[simp] theorem State.setPhase_lastResult (v : Phase) : (s.setPhase v).lastResult = s.lastResult := rfl
@[simp] theorem State.setPhase_out (v : Phase) : (s.setPhase v).out = s.out := rfl
@[simp] theorem State.setPhase_phase (v : Phase) : (s.setPhase v).phase = v := rfl
@[simp] theorem State.setPhase_cfg (v : Phase) : (s.setPhase v).cfg = s.cfg := rfl
@[simp] theorem State.setPhase_ret (v : Phase) : (s.setPhase v).ret = s.ret := rfl
@[simp] theorem State.setPhase_env (v : Phase) : (s.setPhase v).env = s.env := rfl

@[simp] theorem State.setRet_ch (v : Option Value) : (s.setRet v).ch = s.ch := rfl
@[simp] theorem State.setRet_lastValid (v : Option Value) : (s.setRet v).lastValid = s.lastValid := rfl
@[simp] theorem State.setRet_mode (v : Option Value) : (s.setRet v).mode = s.mode := rfl
@[simp] theorem State.setRet_halted (v : Option Value) : (s.setRet v).halted = s.halted := rfl
@[simp] theorem State.setRet_lastResult (v : Option Value) : (s.setRet v).lastResult = s.lastResult := rfl
@[simp] theorem State.setRet_out (v : Option Value) : (s.setRet v).out = s.out := rfl
@[simp] theorem State.setRet_phase (v : Option Value) : (s.setRet v).phase = s.phase := rfl
@[simp] theorem State.setRet_cfg (v : Option Value) : (s.setRet v).cfg = s.cfg := rfl
@[simp] theorem State.setRet_ret (v : Option Value) : (s.setRet v).ret = v := rfl
@[simp] theorem State.setRet_env (v : Option Value) : (s.setRet v).env = s.env := rfl

@[simp] theorem State.setEnv_ch (v : Env) : (s.setEnv v).ch = s.ch := rfl
@[simp] theorem State.setEnv_lastValid (v : Env) : (s.setEnv v).lastValid = s.lastValid := rfl
@[simp] theorem State.setEnv_mode (v : Env) : (s.setEnv v).mode = s.mode := rfl
@[simp] theorem State.setEnv_halted (v : Env) : (s.setEnv v).halted = s.halted := rfl
@[simp] theorem State.setEnv_lastResult (v : Env) : (s.setEnv v).lastResult = s.lastResult := rfl
@[simp] theorem State.setEnv_out (v : Env) : (s.setEnv v).out = s.out := rfl
@[simp] theorem State.setEnv_phase (v : Env) : (s.setEnv v).phase = s.phase := rfl
@[simp] theorem State.setEnv_cfg (v : Env) : (s.setEnv v).cfg = s.cfg := rfl
@[simp] theorem State.setEnv_ret (v : Env) : (s.setEnv v).ret = s.ret := rfl
@[simp] theorem State.setEnv_env (v : Env) : (s.setEnv v).env = v := rfl

end Sys2Proof.Machine
end

