-- ==== Sys2Proof/Laws/Ops.lean ====
section
/-! SUPPORT. One lemma per shared operation that says everything it can do; proofs cite these and do not unfold the operations. -/

namespace Sys2Proof.Machine

/-! ### Flows -/

@[simp] theorem Flow.bind_ok {α β : Type} (a : α) (s : State) (k : α → State → Flow β) :
    (Flow.ok a s).bind k = k a s := rfl
@[simp] theorem Flow.bind_fatal {α β : Type} (c : FatalCause) (s : State) (k : α → State → Flow β) :
    (Flow.fatal c s : Flow α).bind k = .fatal c s := rfl
@[simp] theorem Flow.bind_stop {α β : Type} (f : Fault) (k : α → State → Flow β) :
    (Flow.stop f : Flow α).bind k = .stop f := rfl
@[simp] theorem Flow.outcome_ok {α : Type} (ret : α → Option Value) (a : α) (s : State) :
    (Flow.ok a s).outcome ret = .next (s.setRet (ret a)) := rfl
@[simp] theorem Flow.outcome_fatal {α : Type} (ret : α → Option Value) (c : FatalCause) (s : State) :
    (Flow.fatal c s).outcome ret = .next (shutdown s) := rfl
@[simp] theorem Flow.outcome_stop {α : Type} (ret : α → Option Value) (f : Fault) :
    (Flow.stop f : Flow α).outcome ret = .fault f := rfl

/-- A sequence of statements returns only if each of them does. -/
theorem Flow.bind_eq_ok {α β : Type} {x : Flow α} {k : α → State → Flow β} {b : β} {t : State}
    (h : x.bind k = .ok b t) : ∃ a s, x = .ok a s ∧ k a s = .ok b t := by
  cases x with
  | ok a s => exact ⟨a, s, rfl, h⟩
  | fatal c s => cases h
  | stop f => cases h

/-- A property that holds of the state wherever a flow returns or faults, and of the flow's stops. -/
def Flow.All {α : Type} (x : Flow α) (onOk : α → State → Prop) (onFatal : State → Prop) (onStop : Prop) : Prop :=
  match x with
  | .ok a s => onOk a s
  | .fatal _ s => onFatal s
  | .stop _ => onStop

/-- The property of a sequence from the properties of its parts: the packaged case split of `Flow.bind`. -/
theorem Flow.All.bind {α β : Type} {x : Flow α} {k : α → State → Flow β} {p : α → State → Prop} {q : β → State → Prop}
    {f : State → Prop} {c : Prop} (hx : x.All p f c) (hk : ∀ a s, p a s → (k a s).All q f c) : (x.bind k).All q f c := by
  cases x with
  | ok a s => exact hk a s hx
  | fatal c s => exact hx
  | stop g => exact hx

theorem Flow.All.mono {α : Type} {x : Flow α} {p p' : α → State → Prop} {f f' : State → Prop} {c c' : Prop}
    (hx : x.All p f c) (hp : ∀ a s, p a s → p' a s) (hf : ∀ s, f s → f' s) (hc : c → c') : x.All p' f' c' := by
  cases x with
  | ok a s => exact hp a s hx
  | fatal _ s => exact hf s hx
  | stop _ => exact hc hx

/-! ### Gates -/

/-- What `whenLive` answers: a next state only from a live core, and then the operation's own. -/
theorem whenLive_eq_next {s t : State} {k : Host.Outcome State Fault Refusal} (h : whenLive s k = .next t) :
    s.halted = false ∧ k = .next t := by
  unfold whenLive at h
  split at h
  · cases h
  · next hl => exact ⟨by simpa using hl, h⟩

theorem whenConfigured_eq_next {s t : State} {k : Host.Outcome State Fault Refusal} (h : whenConfigured s k = .next t) :
    cfgWf s.cfg = true ∧ k = .next t := by
  unfold whenConfigured at h
  split at h
  · exact ⟨‹_›, h⟩
  · cases h

theorem whenLive_live {s : State} {k : Host.Outcome State Fault Refusal} (h : s.halted = false) : whenLive s k = k := by
  simp [whenLive, h]

theorem whenConfigured_wf {s : State} {k : Host.Outcome State Fault Refusal} (h : cfgWf s.cfg = true) :
    whenConfigured s k = k := by
  simp [whenConfigured, h]

/-! ### The primitives -/

/-- An injection point either lets the cycle go on or raises the internal fault; it touches nothing but the environment. -/
theorem injectionPoint_cases (s : State) :
    (∃ e, injectionPoint s = .ok () (s.setEnv e)) ∨ (∃ e, injectionPoint s = .fatal .internal (s.setEnv e)) := by
  unfold injectionPoint
  split
  · exact .inl ⟨s.env, rfl⟩
  · exact .inr ⟨_, rfl⟩
  · exact .inl ⟨_, rfl⟩

/-- Where the host injects nothing, an injection point does nothing. -/
theorem injectionPoint_none {s : State} (h : s.env.faultIn = none) : injectionPoint s = .ok () s := by
  simp [injectionPoint, h]

/-- A read returns at most `n` bytes or is fatal; it touches nothing but the environment. -/
theorem transportRead_cases (n : Nat) (s : State) :
    (∃ bs e, transportRead n s = .ok bs (s.setEnv e) ∧ bs.length ≤ n) ∨ (∃ e, transportRead n s = .fatal .transport (s.setEnv e)) := by
  unfold transportRead
  split
  · exact .inl ⟨[], s.env, rfl, Nat.zero_le _⟩
  · split
    · exact .inr ⟨_, rfl⟩
    · refine .inl ⟨_, _, rfl, ?_⟩
      simp only [List.length_take]
      omega

/-- R14: a read of 0 bytes. -/
@[simp] theorem transportRead_zero (s : State) : transportRead 0 s = .ok [] s := rfl

/-- A read answered in full takes the first `n` bytes of the stream. -/
theorem transportRead_full {n limit : Nat} {s : State} {more : List ReadAnswer} (hn : n ≠ 0) (hl : n ≤ limit)
    (h : s.env.reads = .deliver [] limit :: more) :
    transportRead n s = .ok (s.env.rx.take n) (s.setEnv { s.env with rx := s.env.rx.drop n, reads := more }) := by
  simp [transportRead, hn, Env.nextRead, h, Nat.min_eq_left hl]

/-- A read leaves the injection point, the samples and the termination request alone. -/
theorem transportRead_env {n : Nat} {s t : State} {bs : List Byte} (h : transportRead n s = .ok bs t) :
    t.env.faultIn = s.env.faultIn ∧ t.env.times = s.env.times ∧ t.env.timeDraws = s.env.timeDraws ∧ t.env.termIn = s.env.termIn := by
  unfold transportRead Env.nextRead at h
  split at h
  · cases h; exact ⟨rfl, rfl, rfl, rfl⟩
  · cases hr : s.env.reads with
    | nil =>
      rw [hr] at h
      revert h
      simp only
      cases Config.readAnswer s.env.readDraws with
      | fatal => intro h; cases h
      | deliver arrived limit => intro h; cases h; exact ⟨rfl, rfl, rfl, rfl⟩
    | cons a more =>
      rw [hr] at h
      cases a with
      | fatal => cases h
      | deliver arrived limit => cases h; exact ⟨rfl, rfl, rfl, rfl⟩

theorem nowTime_cons {s : State} {t : Time} {more : List Time} (h : s.env.times = t :: more) : nowTime s = t := by
  simp [nowTime, Env.nextTime, h]

theorem afterNow_cons {s : State} {t : Time} {more : List Time} (h : s.env.times = t :: more) :
    afterNow s = s.setEnv { s.env with times := more } := by
  simp [afterNow, Env.nextTime, h]

/-- A time sample leaves the injection point alone. -/
@[simp] theorem afterNow_faultIn (s : State) : (afterNow s).env.faultIn = s.env.faultIn := by
  unfold afterNow Env.nextTime
  split <;> rfl

@[simp] theorem afterNow_ch (s : State) : (afterNow s).ch = s.ch := rfl
@[simp] theorem afterNow_lastValid (s : State) : (afterNow s).lastValid = s.lastValid := rfl
@[simp] theorem afterNow_mode (s : State) : (afterNow s).mode = s.mode := rfl
@[simp] theorem afterNow_halted (s : State) : (afterNow s).halted = s.halted := rfl
@[simp] theorem afterNow_lastResult (s : State) : (afterNow s).lastResult = s.lastResult := rfl
@[simp] theorem afterNow_out (s : State) : (afterNow s).out = s.out := rfl
@[simp] theorem afterNow_phase (s : State) : (afterNow s).phase = s.phase := rfl
@[simp] theorem afterNow_cfg (s : State) : (afterNow s).cfg = s.cfg := rfl
@[simp] theorem afterNow_ret (s : State) : (afterNow s).ret = s.ret := rfl

@[simp] theorem afterTermSample_ch (s : State) : (afterTermSample s).ch = s.ch := rfl
@[simp] theorem afterTermSample_lastValid (s : State) : (afterTermSample s).lastValid = s.lastValid := rfl
@[simp] theorem afterTermSample_mode (s : State) : (afterTermSample s).mode = s.mode := rfl
@[simp] theorem afterTermSample_halted (s : State) : (afterTermSample s).halted = s.halted := rfl
@[simp] theorem afterTermSample_lastResult (s : State) : (afterTermSample s).lastResult = s.lastResult := rfl
@[simp] theorem afterTermSample_out (s : State) : (afterTermSample s).out = s.out := rfl
@[simp] theorem afterTermSample_phase (s : State) : (afterTermSample s).phase = s.phase := rfl
@[simp] theorem afterTermSample_cfg (s : State) : (afterTermSample s).cfg = s.cfg := rfl
@[simp] theorem afterTermSample_ret (s : State) : (afterTermSample s).ret = s.ret := rfl

/-! ### Motor commands -/

/-- A command pair appends its two events, or only the first when an internal fault strikes between them (R166). -/
theorem commandPair_cases (l r : MotorCommand) (s : State) :
    (∃ e, commandPair l r s
        = .ok () (((s.setEnv e).emit (.motor .left l.speed l.dir)).emit (.motor .right r.speed r.dir))) ∨
    (∃ e, commandPair l r s = .fatal .internal ((s.setEnv e).emit (.motor .left l.speed l.dir))) := by
  unfold commandPair
  rcases injectionPoint_cases (setMotor .left l.speed l.dir s) with ⟨e, h⟩ | ⟨e, h⟩
  · exact .inl ⟨e, by rw [h]; rfl⟩
  · exact .inr ⟨e, by rw [h]; rfl⟩

/-- A command pair where the host injects nothing. -/
theorem commandPair_none {l r : MotorCommand} {s : State} (h : s.env.faultIn = none) :
    commandPair l r s = .ok () ((s.emit (.motor .left l.speed l.dir)).emit (.motor .right r.speed r.dir)) := by
  unfold commandPair
  rw [injectionPoint_none (by exact h)]
  rfl

/-! ### Shutdown -/

@[simp] theorem shutdown_ch (s : State) : (shutdown s).ch = s.ch := rfl
@[simp] theorem shutdown_lastValid (s : State) : (shutdown s).lastValid = s.lastValid := rfl
@[simp] theorem shutdown_mode (s : State) : (shutdown s).mode = s.mode := rfl
@[simp] theorem shutdown_halted (s : State) : (shutdown s).halted = true := rfl
@[simp] theorem shutdown_lastResult (s : State) : (shutdown s).lastResult = s.lastResult := rfl
@[simp] theorem shutdown_phase (s : State) : (shutdown s).phase = .shutdown := rfl
@[simp] theorem shutdown_cfg (s : State) : (shutdown s).cfg = s.cfg := rfl
@[simp] theorem shutdown_ret (s : State) : (shutdown s).ret = none := rfl
@[simp] theorem shutdown_env (s : State) : (shutdown s).env = s.env := rfl
@[simp] theorem shutdown_out (s : State) :
    (shutdown s).out = s.out ++ [.motor .left 0 .stop, .motor .right 0 .stop, .release] := by
  simp [shutdown, releaseTransport, allStop, setMotor]

/-! ### The held command -/

@[simp] theorem holdEvent_motor (which w : Side) (v : Rat) (d : Dir) (held : MotorCommand) :
    holdEvent which held (.motor w v d) = if w = which then ⟨v, d⟩ else held := rfl
@[simp] theorem holdEvent_release (which : Side) (held : MotorCommand) : holdEvent which held .release = held := rfl
@[simp] theorem heldCommand_nil (which : Side) : heldCommand which [] = Config.actuatorReset which := rfl

/-- The events emitted last decide what is held. -/
@[simp] theorem heldCommand_append (which : Side) (out es : List Event) :
    heldCommand which (out ++ es) = es.foldl (holdEvent which) (heldCommand which out) := by
  simp [heldCommand]

end Sys2Proof.Machine
end

