-- ==== Sys2Proof/Laws/Decoder.lean ====
section
/-! SUPPORT. What a decode attempt can do: its reads touch the environment and the phase only, and what it records is
`LAST_RESULT` and, on a validated frame, `CH`. -/

namespace Sys2Proof.Machine

/-- The state after some reads and injection points: the environment and the phase are all that may differ; the time samples and
the termination request are not touched, and no internal fault comes up where none was to come. -/
def ReadsOnly (s t : State) : Prop :=
  ∃ e p, t = (s.setEnv e).setPhase p ∧ e.times = s.env.times ∧ e.timeDraws = s.env.timeDraws ∧ e.termIn = s.env.termIn ∧
    (s.env.faultIn = none → e.faultIn = none)

theorem ReadsOnly.refl (s : State) : ReadsOnly s s := ⟨s.env, s.phase, rfl, rfl, rfl, rfl, id⟩

theorem ReadsOnly.trans {s t u : State} (h : ReadsOnly s t) (h' : ReadsOnly t u) : ReadsOnly s u := by
  obtain ⟨e, p, rfl, h1, h2, h3, h4⟩ := h
  obtain ⟨e', p', rfl, h1', h2', h3', h4'⟩ := h'
  exact ⟨e', p', rfl, h1'.trans h1, h2'.trans h2, h3'.trans h3, fun x => h4' (h4 x)⟩

theorem ReadsOnly.setPhase (s : State) (p : Phase) : ReadsOnly s (s.setPhase p) := ⟨s.env, p, rfl, rfl, rfl, rfl, id⟩

theorem ReadsOnly.setEnv {s : State} {e : Env} (h1 : e.times = s.env.times) (h2 : e.timeDraws = s.env.timeDraws)
    (h3 : e.termIn = s.env.termIn) (h4 : s.env.faultIn = none → e.faultIn = none) : ReadsOnly s (s.setEnv e) :=
  ⟨e, s.phase, rfl, h1, h2, h3, h4⟩

section
variable {s t : State} (h : ReadsOnly s t)
include h
theorem ReadsOnly.ch : t.ch = s.ch := by obtain ⟨_, _, rfl, _⟩ := h; rfl
theorem ReadsOnly.lastValid : t.lastValid = s.lastValid := by obtain ⟨_, _, rfl, _⟩ := h; rfl
theorem ReadsOnly.mode : t.mode = s.mode := by obtain ⟨_, _, rfl, _⟩ := h; rfl
theorem ReadsOnly.halted : t.halted = s.halted := by obtain ⟨_, _, rfl, _⟩ := h; rfl
theorem ReadsOnly.lastResult : t.lastResult = s.lastResult := by obtain ⟨_, _, rfl, _⟩ := h; rfl
theorem ReadsOnly.out : t.out = s.out := by obtain ⟨_, _, rfl, _⟩ := h; rfl
theorem ReadsOnly.cfg : t.cfg = s.cfg := by obtain ⟨_, _, rfl, _⟩ := h; rfl
theorem ReadsOnly.ret : t.ret = s.ret := by obtain ⟨_, _, rfl, _⟩ := h; rfl
theorem ReadsOnly.faultIn (hf : s.env.faultIn = none) : t.env.faultIn = none := by obtain ⟨_, _, rfl, _, _, _, h4⟩ := h; exact h4 hf
theorem ReadsOnly.nowTime : nowTime t = nowTime s := by
  obtain ⟨_, _, rfl, h1, h2, _⟩ := h
  simp only [Machine.nowTime, Env.nextTime, State.setPhase_env, State.setEnv_env, h1, h2]
  split <;> rfl
end

theorem injectionPoint_readsOnly (s : State) :
    (injectionPoint s).All (fun _ t => ReadsOnly s t) (ReadsOnly s) False := by
  unfold injectionPoint
  split
  · exact ReadsOnly.refl s
  · exact .setEnv rfl rfl rfl fun _ => rfl
  · next h => exact .setEnv rfl rfl rfl fun h' => by rw [h] at h'; cases h'

theorem transportRead_readsOnly (n : Nat) (s : State) :
    (transportRead n s).All (fun bs t => ReadsOnly s t ∧ bs.length ≤ n) (ReadsOnly s) False := by
  have read : ∀ e : Env, s.env.nextRead.2 = e →
      e.times = s.env.times ∧ e.timeDraws = s.env.timeDraws ∧ e.termIn = s.env.termIn ∧ e.faultIn = s.env.faultIn := by
    rintro e rfl
    unfold Env.nextRead
    split <;> exact ⟨rfl, rfl, rfl, rfl⟩
  unfold transportRead
  split
  · exact ⟨ReadsOnly.refl s, Nat.zero_le _⟩
  · split
    · next e h =>
      obtain ⟨h1, h2, h3, h4⟩ := read e (by rw [h])
      exact .setEnv h1 h2 h3 fun x => h4.trans x
    · next arrived limit e h =>
      obtain ⟨h1, h2, h3, h4⟩ := read e (by rw [h])
      refine ⟨.setEnv h1 h2 h3 fun x => h4.trans x, ?_⟩
      simp only [List.length_take]
      omega

/-- A flow that only reads, from a state that was only read from. -/
theorem Flow.All.afterReads {α : Type} {x : Flow α} {s t : State} {p : α → State → Prop} (h : ReadsOnly s t)
    (hx : x.All (fun a u => ReadsOnly t u ∧ p a u) (ReadsOnly t) False) :
    x.All (fun a u => ReadsOnly s u ∧ p a u) (ReadsOnly s) False :=
  hx.mono (fun _ _ hu => ⟨h.trans hu.1, hu.2⟩) (fun _ hu => h.trans hu) id

theorem injectionPoint_after {s t : State} (h : ReadsOnly s t) :
    (injectionPoint t).All (fun _ u => ReadsOnly s u) (ReadsOnly s) False :=
  (injectionPoint_readsOnly t).mono (fun _ _ hu => h.trans hu) (fun _ hu => h.trans hu) id

theorem transportRead_after (n : Nat) (p : Phase) {s t : State} (h : ReadsOnly s t) :
    (transportRead n (t.setPhase p)).All (fun _ u => ReadsOnly s u) (ReadsOnly s) False :=
  (transportRead_readsOnly n _).mono (fun _ _ hu => (h.trans (.setPhase t p)).trans hu.1)
    (fun _ hu => (h.trans (.setPhase t p)).trans hu) id

/-- The reads of the body (R96). -/
theorem fetchBody_readsOnly (s : State) :
    (fetchBody s).All (fun a t => ReadsOnly s t ∧ a ≠ .short .ok) (ReadsOnly s) False := by
  unfold fetchBody
  refine Flow.All.bind (injectionPoint_readsOnly s) fun _ t ht => ?_
  refine Flow.All.bind (transportRead_after bodyCount .body ht) fun body u hu => ?_
  split
  · exact ⟨hu, by decide⟩
  · exact Flow.All.bind (injectionPoint_after hu) fun _ v hv => ⟨hv.trans (.setPhase v _), by simp⟩

/-- The skip read (R94). -/
theorem fetchSkip_readsOnly (len ty : Byte) (s : State) :
    (fetchSkip len ty s).All (fun a t => ReadsOnly s t ∧ a ≠ .short .ok) (ReadsOnly s) False := by
  unfold fetchSkip
  refine Flow.All.bind (injectionPoint_readsOnly s) fun _ t ht => ?_
  exact Flow.All.bind (transportRead_after (skipCount len) .skip ht) fun skipped u hu => ⟨hu, by simp⟩

/-- The reads from the header on (R92). -/
theorem fetchHeader_readsOnly (s : State) :
    (fetchHeader s).All (fun a t => ReadsOnly s t ∧ a ≠ .short .ok) (ReadsOnly s) False := by
  unfold fetchHeader
  refine Flow.All.bind (injectionPoint_readsOnly s) fun _ t ht => ?_
  refine Flow.All.bind (transportRead_after 2 .header ht) fun h u hu => ?_
  split
  · split
    · exact (fetchSkip_readsOnly _ _ u).afterReads hu
    · split
      · exact ⟨hu, by simp⟩
      · exact (fetchBody_readsOnly u).afterReads hu
  · exact ⟨hu, by decide⟩

/-- The reads of one attempt: they never stop the core, and touch the environment and the phase only. -/
theorem fetch_readsOnly (s : State) : (fetch s).All (fun a t => ReadsOnly s t ∧ a ≠ .short .ok) (ReadsOnly s) False := by
  unfold fetch
  refine Flow.All.bind (transportRead_after 1 .sync (.refl s)) fun r t ht => ?_
  split
  · split
    · exact ⟨ht, by simp⟩
    · exact (fetchHeader_readsOnly t).afterReads ht
  · exact ⟨ht, by decide⟩

/-- What an attempt records: `CH` and `LAST_RESULT = OK` on a validated frame, otherwise another result code alone; its result says which. -/
theorem Attempt.record_cases (a : Attempt) (s : State) (h : a ≠ .short .ok) :
    (∃ p, a.result = some (unpack p) ∧ a.record s = accept p s) ∨
    (a.result = none ∧ ∃ c, c ≠ ResultCode.ok ∧ a.record s = s.setLastResult c) := by
  cases a with
  | short code => exact .inr ⟨rfl, code, fun h' => h (h' ▸ rfl), rfl⟩
  | frame f =>
    cases f with
    | notSync b => exact .inr ⟨rfl, _, by decide, rfl⟩
    | unknownType len ty skipped => exact .inr ⟨rfl, _, by decide, rfl⟩
    | rcBadLength len => exact .inr ⟨rfl, _, by decide, rfl⟩
    | rcBadCrc p c => exact .inr ⟨rfl, _, by decide, rfl⟩
    | rcChannels p => exact .inl ⟨p, rfl, rfl⟩

/-- Everything `TryReadFrame` can do: accept a payload, record another result code, or raise a fatal fault having only read. -/
theorem tryReadFrame_cases (s : State) : (tryReadFrame s).All
    (fun r t => ∃ u, ReadsOnly s u ∧
      ((∃ p, r = some (unpack p) ∧ t = accept p u) ∨ (r = none ∧ ∃ c, c ≠ ResultCode.ok ∧ t = u.setLastResult c)))
    (ReadsOnly s) False := by
  unfold tryReadFrame
  refine Flow.All.bind (fetch_readsOnly s) fun a u hu => ?_
  exact Flow.All.bind (injectionPoint_after hu.1) fun _ v hv => ⟨v, hv, Attempt.record_cases a v hu.2⟩

end Sys2Proof.Machine
end

