-- ==== Sys2Proof/Laws/Supervisor.lean ====
section
/-! SUPPORT. What the rest of a cycle can do once its decode attempt has returned: the packaged case analysis that invariants
cite, and the state it leaves where no fault is injected. -/

namespace Sys2Proof.Machine

open Safety

/-- The entry into shutdown leaves the state R148 describes. -/
theorem shutdown_eq_shutdownEnd (s : State) : shutdown s = shutdownEnd s := by
  simp [shutdown, releaseTransport, allStop, setMotor, State.emit, State.setPhase, State.setHalted, State.setRet, shutdownEnd,
    shutdownEvents, allStopEvents]

/-- Both sides of the mixer lie in [-100, 100] (R131). -/
theorem mix_range (t st : Rat) : (-100 ≤ (mix t st).1 ∧ (mix t st).1 ≤ 100) ∧ (-100 ≤ (mix t st).2 ∧ (mix t st).2 ≤ 100) := by
  have h : ∀ v : Rat, -100 ≤ clamp v (-100) 100 ∧ clamp v (-100) 100 ≤ 100 :=
    fun v => ⟨le_min (le_max_right _ _) (by norm_num), min_le_right _ _⟩
  exact ⟨h _, h _⟩

/-- A property of states that every update of the supervisor keeps holds at the end of a cycle and wherever a fault strikes in
it; and a cycle that ends does so between cycles, with both motors held stopped if it ends in FAILSAFE. The motor commands of a
cycle are `Split`s of values in [-100, 100]. -/
theorem afterDecode_all (P : State → Prop) (r : Option ChannelSet) (s : State) (hs : P s) (hr : r ≠ none → s.ch ≠ none)
    (env : ∀ s e, P s → P (s.setEnv e)) (ph : ∀ s p, P s → P (s.setPhase p)) (lv : ∀ s t, r ≠ none → P s → P (s.setLastValid t))
    (md : ∀ s m, P s → P (s.setMode m))
    (em : ∀ s w v, -100 ≤ v → v ≤ 100 → P s → P (s.emit (.motor w (split v).speed (split v).dir))) :
    (afterDecode r s).All (fun _ t => P t ∧ t.phase = .between ∧ (t.mode = .failsafe → HeldStopped t.out)) P False := by
  have point : ∀ s, P s → (injectionPoint s).All (fun _ t => P t ∧ ∃ e, t = s.setEnv e) P False := by
    intro s hs
    rcases injectionPoint_cases s with ⟨e, h⟩ | ⟨e, h⟩ <;> rw [h]
    · exact ⟨env _ _ hs, e, rfl⟩
    · exact env _ _ hs
  have pair : ∀ s (a b : Rat), -100 ≤ a → a ≤ 100 → -100 ≤ b → b ≤ 100 → P s → (commandPair (split a) (split b) s).All
      (fun _ t => P t ∧ ∃ e, t = ((s.setEnv e).emit (.motor .left (split a).speed (split a).dir)).emit
        (.motor .right (split b).speed (split b).dir)) P False := by
    intro s a b h1 h2 h3 h4 hs
    rcases commandPair_cases (split a) (split b) s with ⟨e, h⟩ | ⟨e, h⟩ <;> rw [h]
    · exact ⟨em _ _ _ h3 h4 (em _ _ _ h1 h2 (env _ _ hs)), e, rfl⟩
    · exact em _ _ _ h1 h2 (env _ _ hs)
  have check : ∀ t s, P s → (checkAt t s).All (fun _ t => P t ∧ (t.mode = .failsafe → HeldStopped t.out)) P False := by
    intro t s hs
    unfold checkAt
    split
    · refine Flow.All.bind (p := fun _ t => P t ∧ HeldStopped t.out) ?_ ?_
      · rw [show stopCommand = split 0 by simp [stopCommand, split]]
        refine (pair s 0 0 (by norm_num) (by norm_num) (by norm_num) (by norm_num) hs).mono ?_ (fun _ h => h) id
        rintro _ t ⟨h, e, rfl⟩
        exact ⟨h, by simp [HeldStopped, split]⟩
      · rintro _ t ⟨h, h'⟩
        refine Flow.All.bind (point t h) ?_
        rintro _ u ⟨h, e, rfl⟩
        exact ⟨md _ _ h, fun _ => h'⟩
    · exact ⟨md _ _ hs, fun h => by simp [modeOf] at h⟩
  unfold afterDecode
  refine Flow.All.bind (point s hs) ?_
  rintro _ s ⟨hs', e, rfl⟩
  refine Flow.All.bind (p := fun _ t => P t) ?_ ?_
  · cases r with
    | none => exact hs'
    | some ch =>
      unfold commandOnSuccess
      refine Flow.All.bind (point _ (lv _ _ (by simp) (env _ _ (ph _ _ hs')))) ?_
      rintro _ t ⟨ht, e', rfl⟩
      obtain ⟨c, hc⟩ := Option.ne_none_iff_exists'.mp (hr (by simp))
      simp only [readChannels, State.setEnv_ch, State.setLastValid_ch, afterNow_ch, State.setPhase_ch, hc, Flow.bind_ok]
      refine Flow.All.bind (p := fun _ t => P t) ?_ ?_
      · unfold commandFromChannels
        exact (pair _ _ _ (mix_range _ _).1.1 (mix_range _ _).1.2 (mix_range _ _).2.1 (mix_range _ _).2.2 (ph _ _ ht)).mono
          (fun _ _ h => h.1) (fun _ h => h) id
      · exact fun _ t ht => (point t ht).mono (fun _ _ h => h.1) (fun _ h => h) id
  · intro _ t ht
    unfold failsafeCheck
    refine Flow.All.bind (p := fun _ t => P t ∧ (t.mode = .failsafe → HeldStopped t.out)) ?_ ?_
    · refine Flow.All.bind (point _ (env _ _ (ph _ _ ht))) ?_
      rintro _ t ⟨ht, e', rfl⟩
      exact check _ _ ht
    · rintro _ t ⟨ht, h'⟩
      refine Flow.All.bind (point _ ht) ?_
      rintro _ t ⟨ht, e', rfl⟩
      exact ⟨ph _ _ ht, rfl, h'⟩

/-- A failsafe check where the host injects nothing: it returns, and with the phase moved on it is the end of a cycle without a frame. -/
theorem failsafeCheck_undisturbed (v : State) (hv : v.env.faultIn = none) :
    ∃ t, failsafeCheck v = .ok () t ∧ t.env.faultIn = none ∧ (t.setPhase .between).setRet none = cycleEnd none v := by
  simp only [failsafeCheck]
  rw [injectionPoint_none (by simpa using hv)]
  simp only [Flow.bind_ok, checkAt]
  split
  · next h =>
    rw [commandPair_none (by simpa using hv)]
    simp only [Flow.bind_ok]
    rw [injectionPoint_none (by simpa using hv)]
    refine ⟨_, rfl, by simpa using hv, ?_⟩
    simp [stale, elapsed] at h
    simp [cycleEnd, State.emit, State.setPhase, State.setRet, State.setMode, afterNow, State.setEnv, modeOf, stopCommand,
      checkEvents, checkMode, h, allStopEvents]
  · next h =>
    refine ⟨_, rfl, by simpa using hv, ?_⟩
    simp [stale, elapsed] at h
    have h' : ¬ ((v.cfg.failsafeTimeout : Int) < nowTime v - v.lastValid) := by omega
    simp [cycleEnd, State.setPhase, State.setRet, State.setMode, afterNow, State.setEnv, modeOf, checkEvents,
      checkMode, h']

/-- What a cycle does after its decode attempt where the host injects nothing: it returns in the state R150 describes. -/
theorem afterDecode_undisturbed (r : Option ChannelSet) (u : State) (hf : u.env.faultIn = none)
    (hr : ∀ ch, r = some ch → u.ch = some ch) : ∃ t, afterDecode r u = .ok () t ∧ t.setRet none = cycleEnd r u := by
  simp only [afterDecode]
  rw [injectionPoint_none hf]
  simp only [Flow.bind_ok]
  cases r with
  | none =>
    obtain ⟨t, h1, h2, h3⟩ := failsafeCheck_undisturbed u hf
    simp only [Flow.bind_ok, h1]
    rw [injectionPoint_none h2]
    exact ⟨_, rfl, h3⟩
  | some ch =>
    simp only [commandOnSuccess]
    rw [injectionPoint_none (by simpa using hf)]
    simp only [Flow.bind_ok, readChannels, State.setLastValid_ch, afterNow_ch, State.setPhase_ch, hr ch rfl, commandFromChannels]
    rw [commandPair_none (by simpa using hf)]
    simp only [Flow.bind_ok]
    rw [injectionPoint_none (by simpa using hf)]
    simp only [Flow.bind_ok]
    generalize hw : State.emit _ _ = w
    obtain ⟨t, h1, h2, h3⟩ := failsafeCheck_undisturbed w (by subst hw; simpa using hf)
    simp only [h1, Flow.bind_ok]
    rw [injectionPoint_none h2]
    refine ⟨_, rfl, h3.trans ?_⟩
    subst hw
    simp [cycleEnd, mixedEvents, nowTime, afterNow, State.emit, State.setPhase, State.setLastValid, State.setEnv, checkEvents,
      checkMode, List.append_assoc]

end Sys2Proof.Machine
end

