-- ==== Sys2Proof/Laws/Injection.lean ====
section
/-! SUPPORT. Internal faults by their count (R166): the list of the states at a flow's injection points says what the flow does for
every count, and the lists of its parts, joined, are the list of the whole. -/

namespace Sys2Proof.Machine

open Safety

/-- A flow's result with a fault still to come. -/
def Flow.withFault {α : Type} (k : Nat) : Flow α → Flow α
  | .ok a s => .ok a (Safety.withFault k s)
  | .fatal c s => .fatal c (Safety.withFault k s)
  | .stop f => .stop f

/-- From `s` the flow `f` passes injection points in the states `pts` and ends as `x` where no fault is injected: a fault at one of the
points strikes in that state, and a later one is still to come at the end. -/
structure Points {α : Type} (f : State → Flow α) (s : State) (pts : List State) (x : Flow α) : Prop where
  undisturbed : f s = x
  quiet : x.All (fun _ t => t.env.faultIn = none) (fun t => t.env.faultIn = none) False
  strikes : ∀ k p, pts[k]? = some p → f (Safety.withFault k s) = .fatal .internal p
  passes : ∀ k, f (Safety.withFault (pts.length + k) s) = x.withFault k

/-- A flow that meets no injection point and does not see the count. -/
theorem Points.pass {α : Type} {f : State → Flow α} {s : State} {x : Flow α} (h : f s = x)
    (hq : x.All (fun _ t => t.env.faultIn = none) (fun t => t.env.faultIn = none) False)
    (hk : ∀ k, f (Safety.withFault k s) = x.withFault k) : Points f s [] x :=
  ⟨h, hq, fun _ _ h => by simp at h, fun k => by simpa using hk k⟩

theorem Points.pure {α : Type} {s : State} (a : α) (g : State → State) (hs : (g s).env.faultIn = none)
    (hk : ∀ k, g (Safety.withFault k s) = Safety.withFault k (g s)) : Points (fun s => .ok a (g s)) s [] (.ok a (g s)) :=
  .pass rfl hs fun k => by simp [hk, Flow.withFault]

/-- Flows that agree whatever the count have the same points. -/
theorem Points.congr {α : Type} {f g : State → Flow α} {s s' : State} {p : List State} {x : Flow α} (hf : Points f s' p x)
    (h : g s = f s') (hk : ∀ k, g (Safety.withFault k s) = f (Safety.withFault k s')) : Points g s p x where
  undisturbed := h.trans hf.undisturbed
  quiet := hf.quiet
  strikes := fun k q hq => (hk k).trans (hf.strikes k q hq)
  passes := fun k => (hk _).trans (hf.passes k)

/-- One injection point. -/
theorem Points.injection {s : State} (hs : s.env.faultIn = none) : Points injectionPoint s [s] (.ok () s) where
  undisturbed := injectionPoint_none hs
  quiet := hs
  strikes := by
    rintro (_ | k) p h
    · obtain rfl : s = p := by simpa using h
      obtain ⟨_, _, _, _, _, _, _, _, _, _, _, _, _, _, _, _⟩ := s
      simp only at hs
      subst hs
      rfl
    · simp at h
  passes := fun k => by
    rw [List.length_singleton, Nat.add_comm]
    rfl

/-- The points of a sequence are those of its parts, one after the other. -/
theorem Points.bind {α β : Type} {f : State → Flow α} {k : α → State → Flow β} {s t : State} {a : α} {p q : List State} {x : Flow β}
    (hf : Points f s p (.ok a t)) (hk : Points (k a) t q x) : Points (fun s => (f s).bind k) s (p ++ q) x where
  undisturbed := by simp only [hf.undisturbed, Flow.bind_ok, hk.undisturbed]
  quiet := hk.quiet
  strikes := fun n r h => by
    rcases Nat.lt_or_ge n p.length with hn | hn
    · simp only [hf.strikes n r (by rwa [List.getElem?_append_left hn] at h), Flow.bind_fatal]
    · obtain ⟨n, rfl⟩ := Nat.exists_eq_add_of_le hn
      rw [List.getElem?_append_right hn, Nat.add_sub_cancel_left] at h
      simp only [hf.passes, Flow.withFault, Flow.bind_ok, hk.strikes n r h]
  passes := fun n => by
    simp only [List.length_append, Nat.add_assoc, hf.passes, Flow.withFault, Flow.bind_ok, hk.passes]

/-- A sequence whose first part ends in a fatal fault. -/
theorem Points.bind_fatal {α β : Type} {f : State → Flow α} {k : α → State → Flow β} {s t : State} {c : FatalCause} {p : List State}
    (hf : Points f s p (.fatal c t)) : Points (fun s => (f s).bind k) s p (.fatal c t) where
  undisturbed := by simp only [hf.undisturbed, Flow.bind_fatal]
  quiet := hf.quiet
  strikes := fun n r h => by simp only [hf.strikes n r h, Flow.bind_fatal]
  passes := fun n => by simp only [hf.passes, Flow.withFault, Flow.bind_fatal]

/-- A flow preceded by an update that does not see the count. -/
theorem Points.after {α : Type} {f : State → Flow α} {s : State} {p : List State} {x : Flow α} (g : State → State)
    (hg : ∀ k, g (Safety.withFault k s) = Safety.withFault k (g s)) (hf : Points f (g s) p x) : Points (fun s => f (g s)) s p x :=
  hf.congr rfl fun k => by rw [hg]

/-! ### The decode attempt -/

theorem transportRead_withFault (n k : Nat) (s : State) :
    transportRead n (Safety.withFault k s) = (transportRead n s).withFault k := by
  unfold transportRead Env.nextRead
  by_cases hn : n = 0
  · simp [hn, Flow.withFault]
  · simp only [if_neg hn, Safety.withFault]
    cases s.env.reads with
    | nil => simp only; cases Config.readAnswer s.env.readDraws <;> rfl
    | cons a more => cases a <;> rfl

theorem transportRead_points (n : Nat) {s : State} (hs : s.env.faultIn = none) : Points (transportRead n) s [] (transportRead n s) := by
  refine .pass rfl ?_ fun k => transportRead_withFault n k s
  exact (transportRead_readsOnly n s).mono (fun _ _ h => h.1.faultIn hs) (fun _ h => h.faultIn hs) id

/-- A flow of reads and injection points: it passes points that were only read to, and ends as it does undisturbed. -/
def ReadPoints {α : Type} (f : State → Flow α) : Prop :=
  ∀ s : State, s.env.faultIn = none → ∃ pts, Points f s pts (f s) ∧ (∀ p ∈ pts, ReadsOnly s p) ∧
    (f s).All (fun _ t => ReadsOnly s t) (fun _ => True) False

theorem ReadPoints.bind {α β : Type} {f : State → Flow α} {k : α → State → Flow β} (hf : ReadPoints f) (hk : ∀ a, ReadPoints (k a)) :
    ReadPoints fun s => (f s).bind k := by
  intro s hs
  obtain ⟨p, h1, h2, h3⟩ := hf s hs
  cases hx : f s with
  | ok a t =>
    simp only [hx] at h1 h3
    have h3 : ReadsOnly s t := h3
    obtain ⟨q, h4, h5, h6⟩ := hk a t (h3.faultIn hs)
    refine ⟨p ++ q, by simpa [hx] using h1.bind h4, ?_, ?_⟩
    · intro r hr
      rcases List.mem_append.mp hr with hr | hr
      · exact h2 r hr
      · exact h3.trans (h5 r hr)
    · simpa only [hx, Flow.bind_ok] using h6.mono (fun _ _ h => h3.trans h) (fun _ h => h) id
  | fatal c t =>
    simp only [hx] at h1
    exact ⟨p, by simpa [hx] using h1.bind_fatal, h2, by simp only [hx]; trivial⟩
  | stop g => rw [hx] at h3; exact h3.elim

theorem ReadPoints.ok {α : Type} (a : α) (g : State → State) (hg : ∀ s k, g (Safety.withFault k s) = Safety.withFault k (g s))
    (hr : ∀ s, ReadsOnly s (g s)) : ReadPoints fun s => .ok a (g s) :=
  fun s hs => ⟨[], .pure a g ((hr s).faultIn hs) (hg s), by simp, hr s⟩

theorem readPoints_injection : ReadPoints injectionPoint := by
  intro s hs
  refine ⟨[s], ?_, by simpa using ReadsOnly.refl s, ?_⟩ <;> rw [injectionPoint_none hs]
  · exact .injection hs
  · exact ReadsOnly.refl s

theorem readPoints_read (n : Nat) (p : Phase) : ReadPoints fun s => transportRead n (s.setPhase p) := by
  intro s hs
  refine ⟨[], (transportRead_points n (s := s.setPhase p) (by simpa using hs)).after (·.setPhase p) fun _ => rfl, by simp, ?_⟩
  exact (transportRead_after n p (.refl s)).mono (fun _ _ h => h) (fun _ _ => trivial) id

theorem readPoints_fetch : ReadPoints fetch := by
  have same : ∀ a : Attempt, ReadPoints fun s => .ok a s := fun a => .ok a id (fun _ _ => rfl) ReadsOnly.refl
  have body : ReadPoints fetchBody := by
    refine readPoints_injection.bind fun _ => (readPoints_read bodyCount .body).bind fun b => ?_
    split
    · exact same _
    · exact readPoints_injection.bind fun _ => .ok _ (·.setPhase .validate) (fun _ _ => rfl) fun s => .setPhase s _
  have skip : ∀ len ty, ReadPoints (fetchSkip len ty) := fun len ty =>
    readPoints_injection.bind fun _ => (readPoints_read (skipCount len) .skip).bind fun _ => same _
  have header : ReadPoints fetchHeader := by
    refine readPoints_injection.bind fun _ => (readPoints_read 2 .header).bind fun h => ?_
    split
    · split
      · exact skip _ _
      · split
        · exact same _
        · exact body
    · exact same _
  refine (readPoints_read 1 .sync).bind fun r => ?_
  split
  · split
    · exact same _
    · exact header
  · exact same _

/-- A decode attempt up to its record: the reads and the injection point behind them. -/
def attempt (s : State) : Flow Attempt := (fetch s).bind fun a s => (injectionPoint s).bind fun _ s => .ok a s

theorem readPoints_attempt : ReadPoints attempt :=
  readPoints_fetch.bind fun a => readPoints_injection.bind fun _ => .ok a id (fun _ _ => rfl) ReadsOnly.refl

theorem tryReadFrame_eq_attempt (s : State) : tryReadFrame s = (attempt s).bind fun a s => .ok a.result (a.record s) := by
  unfold tryReadFrame attempt
  cases fetch s with
  | ok a t => simp only [Flow.bind_ok]; cases injectionPoint t <;> rfl
  | fatal c t => rfl
  | stop g => rfl

/-- The points of a decode attempt: the core is as it was, but for what the reads consumed. -/
theorem tryReadFrame_points {s : State} (hs : s.env.faultIn = none) :
    ∃ pts, Points tryReadFrame s pts (tryReadFrame s) ∧ ∀ p ∈ pts, ReadsOnly s p := by
  obtain ⟨p, h1, h2, h3⟩ := readPoints_attempt s hs
  refine ⟨p, ?_, h2⟩
  rw [funext tryReadFrame_eq_attempt]
  cases hx : attempt s with
  | ok a t =>
    rw [hx] at h1
    have ht : t.env.faultIn = none := h1.quiet
    have hr : (a.record t).env.faultIn = none := by rcases a with c | ⟨_ | _ | _ | _ | _⟩ <;> exact ht
    have hk : ∀ k, a.record (Safety.withFault k t) = Safety.withFault k (a.record t) := by
      intro k
      rcases a with c | ⟨_ | _ | _ | _ | _⟩ <;> rfl
    have h := h1.bind (k := fun a s => .ok a.result (a.record s)) (.pure a.result a.record hr hk)
    simp only [hx, Flow.bind_ok]
    simpa using h
  | fatal c t =>
    rw [hx] at h1
    simp only [hx, Flow.bind_fatal]
    exact h1.bind_fatal
  | stop g => rw [hx] at h3; exact h3.elim

/-! ### The supervisor -/

theorem nowTime_withFault (k : Nat) (s : State) : nowTime (Safety.withFault k s) = nowTime s := by
  simp only [nowTime, Env.nextTime, Safety.withFault]
  cases s.env.times <;> rfl

theorem afterNow_withFault (k : Nat) (s : State) : afterNow (Safety.withFault k s) = Safety.withFault k (afterNow s) := by
  simp only [afterNow, Env.nextTime, Safety.withFault, State.setEnv]
  cases s.env.times <;> rfl

/-- A command pair has one point, between its two events. -/
theorem commandPair_points (l r : MotorCommand) {s : State} (hs : s.env.faultIn = none) :
    Points (commandPair l r) s [s.emit (.motor .left l.speed l.dir)]
      (.ok () ((s.emit (.motor .left l.speed l.dir)).emit (.motor .right r.speed r.dir))) :=
  ((Points.injection (s := s.emit (.motor .left l.speed l.dir)) (by simpa using hs)).bind
    (.pure () (setMotor .right r.speed r.dir) (by simpa [setMotor] using hs) fun _ => rfl)).after (setMotor .left l.speed l.dir) fun _ => rfl

/-- The points of a failsafe check are those `checkPoints` lists before the last, which is the state it ends in. -/
theorem failsafeCheck_points {v : State} (hv : v.env.faultIn = none) : ∃ pts t,
    Points failsafeCheck v pts (.ok () t) ∧ pts.map shutdownEnd ++ [shutdownEnd t] = (checkPoints v).map shutdownEnd := by
  let c := afterNow (v.setPhase .check)
  have hc : c.env.faultIn = none := by simpa [c] using hv
  have start : ∀ {p x}, Points (checkAt (nowTime v)) c p x → Points failsafeCheck v (c :: p) x := fun h =>
    ((Points.injection hc).bind (k := fun _ => checkAt (nowTime v)) h).congr rfl fun k => by
      simp only [failsafeCheck, nowTime_withFault, c, ← afterNow_withFault]
      rfl
  by_cases hst : nowTime v - v.lastValid > (v.cfg.failsafeTimeout : Int)
  · have e : ∀ w : State, w.lastValid = v.lastValid → w.cfg = v.cfg → checkAt (nowTime v) w =
        (commandPair stopCommand stopCommand w).bind fun _ s =>
          (injectionPoint s).bind fun _ s => .ok () (s.setMode (modeOf true)) := fun w h1 h2 =>
      if_pos (by rw [h1, h2]; simpa [stale, elapsed] using hst)
    have body := (commandPair_points stopCommand stopCommand hc).bind
      (k := fun _ s => (injectionPoint s).bind fun _ s => .ok () (s.setMode (modeOf true)))
      ((Points.injection (by simpa using hc)).bind (.pure () (·.setMode (modeOf true)) (by simpa using hc) fun _ => rfl))
    refine ⟨_, _, start (body.congr (e c rfl rfl) fun k => e (Safety.withFault k c) rfl rfl), ?_⟩
    simp [checkPoints, hst, shutdownEnd, allStopEvents, stopCommand, modeOf, State.emit, State.setPhase, State.setMode, afterNow,
      State.setEnv, c]
  · have e : ∀ w : State, w.lastValid = v.lastValid → w.cfg = v.cfg →
        checkAt (nowTime v) w = .ok () (w.setMode (modeOf false)) := fun w h1 h2 =>
      if_neg (by rw [h1, h2]; simpa [stale, elapsed] using hst)
    have body : Points (fun s => .ok () (s.setMode (modeOf false))) c [] _ :=
      .pure () (·.setMode (modeOf false)) (by simpa using hc) fun _ => rfl
    refine ⟨_, _, start (body.congr (e c rfl rfl) fun k => e (Safety.withFault k c) rfl rfl), ?_⟩
    simp [checkPoints, hst, shutdownEnd, modeOf, State.setPhase, State.setMode, afterNow, State.setEnv, c]

/-- The points of the success path: `LAST_VALID` written, between the pair, after it. -/
theorem commandOnSuccess_points {u : State} (hf : u.env.faultIn = none) {ch : ChannelSet} (hch : u.ch = some ch) :
    let v := (afterNow (u.setPhase .command)).setLastValid (nowTime u)
    let l := (v.setPhase .command).emit
      (.motor .left (split (mixedSpeeds u.cfg ch).1).speed (split (mixedSpeeds u.cfg ch).1).dir)
    let r := l.emit (.motor .right (split (mixedSpeeds u.cfg ch).2).speed (split (mixedSpeeds u.cfg ch).2).dir)
    Points commandOnSuccess u [v, l, r] (.ok () r) := by
  intro v l r
  have hv : v.env.faultIn = none := by simpa [v] using hf
  have pair := (commandPair_points (split (mixedSpeeds u.cfg ch).1) (split (mixedSpeeds u.cfg ch).2)
    (s := v.setPhase .command) hv).bind (k := fun _ => injectionPoint) (.injection hv)
  have e : ∀ w : State, w.ch = u.ch → w.cfg = u.cfg →
      ((readChannels w).bind fun ch s => (commandFromChannels ch s).bind fun _ s => injectionPoint s) =
      (commandPair (split (mixedSpeeds u.cfg ch).1) (split (mixedSpeeds u.cfg ch).2) (w.setPhase .command)).bind
        fun _ s => injectionPoint s := by
    intro w h1 h2
    simp only [readChannels, h1, hch, Flow.bind_ok, commandFromChannels, h2]
  have rest : Points (fun s => (readChannels s).bind fun ch s => (commandFromChannels ch s).bind fun _ s => injectionPoint s)
      v [l, r] (.ok () r) := pair.congr (e v rfl rfl) fun k => e (Safety.withFault k v) rfl rfl
  refine ((Points.injection hv).bind (k := fun _ s => (readChannels s).bind fun ch s =>
    (commandFromChannels ch s).bind fun _ s => injectionPoint s) rest).congr rfl fun k => ?_
  simp only [commandOnSuccess, nowTime_withFault]
  rw [show (Safety.withFault k u).setPhase .command = Safety.withFault k (u.setPhase .command) from rfl, afterNow_withFault]
  rfl

/-- The points of what a cycle does after its decode attempt are those `pointStates` lists, and it ends in the state R150 describes. -/
theorem afterDecode_points (r : Option ChannelSet) {u : State} (hf : u.env.faultIn = none) (hr : ∀ ch, r = some ch → u.ch = some ch) :
    ∃ pts t, Points (afterDecode r) u pts (.ok () t) ∧ pts.map shutdownEnd = (pointStates r u).map shutdownEnd ∧
      t.setRet none = cycleEnd r u := by
  have tail : ∀ w : State, w.env.faultIn = none → ∃ pts t, Points (fun s => (failsafeCheck s).bind fun _ s =>
      (injectionPoint s).bind fun _ s => .ok () (s.setPhase .between)) w pts (.ok () t) ∧
      pts.map shutdownEnd = (checkPoints w).map shutdownEnd := by
    intro w hw
    obtain ⟨p, t, h1, h2⟩ := failsafeCheck_points hw
    have ht : t.env.faultIn = none := h1.quiet
    exact ⟨_, _, h1.bind ((Points.injection ht).bind (.pure () (·.setPhase .between) ht fun _ => rfl)), by simpa using h2⟩
  have whole : ∃ pts t, Points (afterDecode r) u pts (.ok () t) ∧ pts.map shutdownEnd = (pointStates r u).map shutdownEnd := by
    cases r with
    | none =>
      obtain ⟨p, t, h1, h2⟩ := tail u hf
      exact ⟨_, t, (Points.injection hf).bind h1, by simpa [pointStates] using h2⟩
    | some ch =>
      have c := commandOnSuccess_points hf (hr ch rfl)
      obtain ⟨p, t, h1, h2⟩ := tail _ c.quiet
      refine ⟨_, t, (Points.injection hf).bind (c.bind h1), ?_⟩
      rw [List.map_append, List.map_append, h2]
      simp [pointStates, mixedEvents, checkPoints, apply_ite (List.map shutdownEnd), shutdownEnd, nowTime, afterNow, State.emit,
        State.setPhase, State.setLastValid, State.setEnv, List.append_assoc]
  obtain ⟨pts, t, h1, h2⟩ := whole
  obtain ⟨t', h3, h4⟩ := afterDecode_undisturbed r u hf hr
  obtain rfl : t = t' := by simpa [h3] using h1.undisturbed.symm
  exact ⟨pts, t, h1, h2, h4⟩

end Sys2Proof.Machine
end

