-- ==== Sys2Proof/Laws/PerInstr.lean ====
section
/-! SUPPORT. Statements about every instruction as syntax, one lemma per constructor: how long a well-formed instruction's
encoding is (spec 41_frame_decoder.md R99: the bytes consumed under full delivery). -/

namespace Sys2Proof.Laws.EncodedLength

open Machine

/-- R99: the bytes a frame class consumes when everything is delivered; no other instruction has an encoding. -/
def bytes : Instr → Nat
  | .notSync _ => 1
  | .unknownType len _ _ => 3 + skipCount len
  | .rcBadLength _ => 3
  | _ => 26

/-- A well-formed instruction that has an encoding has one of the length R99 gives its class. -/
def Statement (i : Instr) : Prop := i.wf = true → ∀ bs, encode i = some bs → bs.length = bytes i

theorem notSync (b : Byte) : Statement (.notSync b) := by
  rintro - bs ⟨⟩
  rfl

theorem unknownType (len ty : Byte) (skipped : List Byte) : Statement (.unknownType len ty skipped) := by
  rintro h bs ⟨⟩
  simp only [Instr.wf, Bool.and_eq_true, beq_iff_eq] at h
  simp only [bytes, List.length_cons, h.2]
  omega

theorem rcBadLength (len : Byte) : Statement (.rcBadLength len) := by
  rintro - bs ⟨⟩
  rfl

theorem rcBadCrc (payload : Payload) (checksum : Byte) : Statement (.rcBadCrc payload checksum) := by
  rintro - bs ⟨⟩
  simp [bytes]

theorem rcChannels (payload : Payload) : Statement (.rcChannels payload) := by
  rintro - bs ⟨⟩
  simp [bytes]

theorem crc8 (bs : List Byte) : Statement (.crc8 bs) := by rintro - _ ⟨⟩
theorem tryReadFrame : Statement .tryReadFrame := by rintro - _ ⟨⟩
theorem unpack (p : Payload) : Statement (.unpack p) := by rintro - _ ⟨⟩
theorem pack (ch : Vector Nat 16) : Statement (.pack ch) := by rintro - _ ⟨⟩
theorem map (raw : Rat) : Statement (.map raw) := by rintro - _ ⟨⟩
theorem deadzone (v : Rat) : Statement (.deadzone v) := by rintro - _ ⟨⟩
theorem invert (v : Rat) (flag : Bool) : Statement (.invert v flag) := by rintro - _ ⟨⟩
theorem shape (raw : Rat) (flag : Bool) : Statement (.shape raw flag) := by rintro - _ ⟨⟩
theorem mix (throttle steering : Rat) : Statement (.mix throttle steering) := by rintro - _ ⟨⟩
theorem split (v : Rat) : Statement (.split v) := by rintro - _ ⟨⟩
theorem run : Statement .run := by rintro - _ ⟨⟩
theorem cycle : Statement .cycle := by rintro - _ ⟨⟩
theorem commandFromChannels (ch : ChannelSet) : Statement (.commandFromChannels ch) := by rintro - _ ⟨⟩
theorem failsafeCheck : Statement .failsafeCheck := by rintro - _ ⟨⟩
theorem shutdown : Statement .shutdown := by rintro - _ ⟨⟩
theorem reset : Statement .reset := by rintro - _ ⟨⟩

end Sys2Proof.Laws.EncodedLength
end

