-- ==== Sys2Proof/Machine/Stimulus.lean ====
section
/-! DEFINITION. The stimulus notation (spec 30_encoding.md R74, R75): what the outside world does to the machine, one directive at
a time, with the full-delivery transport as the default (D21). It is the host interface of the model; no rule of the core reads it. -/

namespace Sys2Proof.Machine

/-- R74: the directives. -/
inductive Directive where
  | cfg (b : Bundle)
  | reset (t : Time)
  | rx (bs : List Byte)
  | cycle (tU tC : Time)
  | short (k : Nat)
  | fatal
  | term
  deriving DecidableEq, Repr

/-- R74: the full-delivery transport: every read of a cycle returns `min(n, r)` bytes. -/
def fullDelivery : List ReadAnswer := List.replicate 3 (.deliver [] longestFrame)

/-- R74: the samples of a cycle: `tU` is used only if the decode succeeds. -/
def cycleTimes (tU tC : Time) (s : State) : List Time :=
  match tryReadFrame s with
  | .ok (some _) _ => [tU, tC]
  | _ => [tC]

/-- R74: the state a `cycle` directive's turn starts from: the pending `short` and `fatal` answers, then full delivery. -/
def prepareCycle (tU tC : Time) (s : State) : State :=
  s.setEnv { s.env with reads := s.env.reads ++ fullDelivery, termIn := none, faultIn := none,
                        times := cycleTimes tU tC
                          (s.setEnv { s.env with reads := s.env.reads ++ fullDelivery, termIn := none, faultIn := none }) }

/-- R74: after a cycle the full-delivery answers put behind the pending ones are taken away, and a pending one that no read of the cycle
has reached stays for the next `TransportRead` (log entry 25). -/
def dropAnswers (s : State) : State :=
  s.setEnv { s.env with reads := s.env.reads.take (s.env.reads.length - fullDelivery.length), times := [] }

/-- The outcome with the answers its next state has left over taken away. -/
def withoutAnswers : Host.Outcome State Fault Refusal → Host.Outcome State Fault Refusal
  | .next s => .next (dropAnswers s)
  | .fault r => .fault r
  | .refused r => .refused r

/-- R74: one directive. DESIGN CHOICE (log entry 24): `cfg` is accepted in any state and replaces the configuration there, also in the
middle of a run, where R18, R31 and R182 know no such change; a script of the notation gives it before `reset`. DESIGN CHOICE (log
entry 25): several `short` and `fatal` before one cycle answer successive reads in the order given, those that a cycle does not reach or
that are pending at a `reset` answer the next reads there are, and `term` takes its step at once. DESIGN CHOICE (log entry 28): a directive given before `reset` acts on
the state it finds, so a `term` there shuts the core down at once and `reset` then starts a run, whose next `cycle` has no termination. -/
def stimulate (d : Directive) (s : State) : Host.Outcome State Fault Refusal :=
  match d with
  | .cfg b =>
    match cfgOfBundle b with
    | some c => .next { s with cfg := c }
    | none => .refused .illFormedConfig
  | .reset t => exec .reset (s.setEnv { s.env with times := [t] })
  | .rx bs => .next (s.setEnv { s.env with rx := s.env.rx ++ bs })
  | .cycle tU tC => withoutAnswers (step (prepareCycle tU tC s))
  | .short k => .next (s.setEnv { s.env with reads := s.env.reads ++ [.deliver [] k] })
  | .fatal => .next (s.setEnv { s.env with reads := s.env.reads ++ [.fatal] })
  | .term => step (s.setEnv { s.env with termIn := some 0 })

/-- R75 `rcframe`: the bytes of a validated frame with these channels; a value above 2047 is refused (R111). -/
def rcframe (ch : Vector Nat 16) : Option (List Byte) :=
  if packInDomain ch then encode (.rcChannels (pack ch)) else none

/-- R75 `rcframe*`: the channels not listed default to 992. DESIGN CHOICE (log entry 27): a listed index above 15 and a channel listed twice,
of which R75 says nothing, are refused. -/
def rcframeStar (listed : List (Nat × Nat)) : Option (List Byte) :=
  if (listed.map Prod.fst).all (· < 16) && decide (listed.map Prod.fst).Nodup then
    rcframe (Vector.ofFn fun i : Fin 16 => ((listed.find? fun c => c.1 == i.val).map Prod.snd).getD 992)
  else none

/-- R75 `rawframe T b0 .. bn`: any type, with a right length byte and checksum. DESIGN CHOICE (log entry 23): R75 gives no bound on n, and
more than 253 payload bytes, whose length `n + 3` no length byte holds (R62, R72), are refused; no payload byte at all is admitted. -/
def rawframe (ty : Byte) (bs : List Byte) : Option (List Byte) :=
  if bs.length ≤ 253 then some (syncByte :: BitVec.ofNat 8 (bs.length + 2) :: ty :: (bs ++ [crc8 (ty :: bs)])) else none

end Sys2Proof.Machine
end

