-- ==== Sys2Proof/Tests/Slice0.lean ====
section
/-! SUPPORT. Tests and witnesses. Every expected value is a vector of spec 95_test_vectors.md, a table of 40_checksum.md, or worked
out by hand from the rule named beside it. The witnesses show states and operands that meet the hypotheses of the obligations. -/

set_option Elab.async false

namespace Sys2Proof.Tests

open Sys2Proof.Machine Sys2Proof.Safety

/-! ### The configuration, states and frames of the vectors -/

/-- `CFG-A` of 95_test_vectors.md, as a bundle. -/
def bundleA : Bundle :=
  { throttleCh := 2, steeringCh := 0, deadzone := 50, invertThrottle := false, invertSteering := false }

/-- `CFG-A` as control registers. -/
def cfgA : Cfg where
  throttleCh := 2
  steeringCh := 0
  deadzone := 50
  invertThrottle := false
  invertSteering := false
  inMin := 172
  inMax := 1811
  outMin := -100
  outMax := 100
  failsafeTimeout := 500000

/-- A state after `reset t=0` under `CFG-A`, with this stream, these read answers and these time samples to come. -/
def at' (rx : List Byte) (reads : List ReadAnswer) (times : List Time) : State :=
  { State.reset with cfg := cfgA, env := ⟨rx, reads, 0, times, 0, none, none, Config.transport⟩ }

/-- The same with the full-delivery transport. -/
def live (rx : List Byte) (times : List Time) : State := at' rx fullDelivery times

/-- FD-1: all channels 992. -/
def fd1 : List Byte :=
  [0xC8#8, 0x18#8, 0x16#8, 0xE0#8, 0x03#8, 0x1F#8, 0xF8#8, 0xC0#8, 0x07#8, 0x3E#8, 0xF0#8, 0x81#8, 0x0F#8] ++
  [0x7C#8, 0xE0#8, 0x03#8, 0x1F#8, 0xF8#8, 0xC0#8, 0x07#8, 0x3E#8, 0xF0#8, 0x81#8, 0x0F#8, 0x7C#8, 0xAD#8]

/-- The payload of FD-1 (UP-5). -/
def up5 : Payload :=
  #v[0xE0#8, 0x03#8, 0x1F#8, 0xF8#8, 0xC0#8, 0x07#8, 0x3E#8, 0xF0#8, 0x81#8, 0x0F#8, 0x7C#8,
     0xE0#8, 0x03#8, 0x1F#8, 0xF8#8, 0xC0#8, 0x07#8, 0x3E#8, 0xF0#8, 0x81#8, 0x0F#8, 0x7C#8]

/-- FD-6: channel 2 at 1811, the others 992; the byte at index 10 is the parameter (`F0` in FD-6, `F1` in FD-19). -/
def fd6 (byte10 : Byte) : List Byte :=
  [0xC8#8, 0x18#8, 0x16#8, 0xE0#8, 0x03#8, 0xDF#8, 0xC4#8, 0xC1#8, 0x07#8, 0x3E#8, byte10, 0x81#8, 0x0F#8] ++
  [0x7C#8, 0xE0#8, 0x03#8, 0x1F#8, 0xF8#8, 0xC0#8, 0x07#8, 0x3E#8, 0xF0#8, 0x81#8, 0x0F#8, 0x7C#8, 0x8B#8]

/-- The channels of FD-6. -/
def ch6 : ChannelSet := Vector.ofFn fun i => if i.val = 2 then 1811#11 else 992#11

/-- The channels of UP-7. -/
def ch7 : Vector Nat 16 := #v[172, 992, 1811, 0, 2047, 1, 1024, 1023, 1365, 682, 100, 200, 300, 400, 500, 600]

/-- The payload of UP-7. -/
def up7 : Payload :=
  #v[0xAC#8, 0x00#8, 0xDF#8, 0xC4#8, 0x01#8, 0xF0#8, 0xFF#8, 0x00#8, 0x00#8, 0xF0#8, 0x7F#8,
     0x55#8, 0x55#8, 0x15#8, 0x19#8, 0x90#8, 0xC1#8, 0x12#8, 0xC8#8, 0xD0#8, 0x07#8, 0x4B#8]

/-- What an outcome's next state shows. -/
def seen {α : Type} (f : State → α) : Host.Outcome State Fault Refusal → Option α
  | .next s => some (f s)
  | .fault _ => none
  | .refused _ => none

/-- A next state that shows `true` is a next state with that property. -/
theorem next_of_seen {f : State → Bool} {o : Host.Outcome State Fault Refusal} (h : seen f o = some true) :
    ∃ t, o = .next t ∧ f t = true := by
  cases o with
  | next t => exact ⟨t, rfl, Option.some.inj h⟩
  | fault r => cases h
  | refused r => cases h

/-- R144, R148: the events of the cleanup, written out. -/
def cleanupEvents : List Event := [.motor .left 0 .stop, .motor .right 0 .stop, .release]

/-! ### Well-formedness: an ill-formed term for each check -/

theorem test_wf_refuses_sync_byte : (Instr.notSync 0xC8#8).wf = false := by decide
theorem test_wf_refuses_rc_type : (Instr.unknownType 0x04#8 0x16#8 [0xAA#8, 0xBB#8, 0xCC#8]).wf = false := by decide
theorem test_wf_refuses_skip_length : (Instr.unknownType 0x04#8 0x02#8 [0xAA#8, 0xBB#8]).wf = false := by decide
theorem test_wf_refuses_rc_length : (Instr.rcBadLength 0x18#8).wf = false := by decide
theorem test_wf_refuses_right_checksum : (Instr.rcBadCrc up5 0xAD#8).wf = false := by decide +kernel
theorem test_wf_refuses_2048 : (Instr.pack (Vector.replicate 16 2048)).wf = false := by decide
theorem test_wf_refuses_split_101 : (Instr.split 101).wf = false := by decide +kernel
theorem test_wf_admits : (Instr.notSync 0x00#8).wf = true ∧ (Instr.unknownType 0x00#8 0x02#8 []).wf = true ∧
    (Instr.rcBadLength 0x19#8).wf = true ∧ (Instr.rcBadCrc up5 0xAE#8).wf = true ∧ (Instr.pack ch7).wf = true := by decide +kernel
theorem test_bundle_refuses_index_16 : cfgOfBundle { bundleA with throttleCh := 16 } = none ∧
    cfgOfBundle { bundleA with steeringCh := 16 } = none := by decide +kernel
theorem test_bundle_refuses_empty_range : cfgOfBundle { bundleA with inMin := 1811 } = none := by decide +kernel
theorem test_bundle_sets_registers : cfgOfBundle bundleA = some cfgA := by decide +kernel

/-! ### Decoding, from words written out -/

/-- FD-11. -/
theorem test_decode_not_sync : decode ([0x00#8] ++ fd1) = .instr (.notSync 0x00#8) fd1 := by decide +kernel
/-- FD-14. -/
theorem test_decode_unknown : decode ([0xC8#8, 0x04#8, 0x02#8, 0xAA#8, 0xBB#8, 0xCC#8] ++ fd1)
    = .instr (.unknownType 0x04#8 0x02#8 [0xAA#8, 0xBB#8, 0xCC#8]) fd1 := by decide +kernel
/-- FD-15, R71. -/
theorem test_decode_unknown_length_0 : decode ([0xC8#8, 0x00#8, 0x02#8] ++ fd1) = .instr (.unknownType 0x00#8 0x02#8 []) fd1 := by
  decide +kernel
/-- FD-17. -/
theorem test_decode_bad_length : decode ([0xC8#8, 0x19#8, 0x16#8] ++ fd1) = .instr (.rcBadLength 0x19#8) fd1 := by decide +kernel
/-- FD-1, UP-5. -/
theorem test_decode_rc : decode (fd1 ++ [0x00#8]) = .instr (.rcChannels up5) [0x00#8] := by decide +kernel
/-- FD-19. -/
theorem test_decode_bad_crc : decode (fd6 0xF1#8) = .instr (.rcBadCrc (payloadOf ((fd6 0xF1#8).drop 3)) 0x8B#8) [] := by decide +kernel
/-- FD-10, FD-12, FD-13, FD-18. -/
theorem test_decode_rejects : decode [] = .reject .noData ∧ decode [0xC8#8] = .reject .shortHeader ∧
    decode [0xC8#8, 0x18#8] = .reject .shortHeader ∧ decode [0xC8#8, 0x18#8, 0x16#8, 0x00#8, 0x01#8] = .reject .shortBody := by decide +kernel
/-- R69: `match` and `mask` of the table's rows. -/
theorem test_table_words : decodeTableWord 24 0x00C816 = some (.notSync 0x00#8) ∧
    decodeTableWord 24 0xC80402 = some (.unknownType 0x04#8 0x02#8 [0x00#8, 0x00#8, 0x00#8]) ∧
    decodeTableWord 24 0xC81916 = some (.rcBadLength 0x19#8) := by decide +kernel
/-- FD-1. -/
theorem test_encode_rc : encode (.rcChannels up5) = some fd1 := by decide +kernel

/-! ### The operations -/

/-- CK-9. -/
theorem test_crc8_check_value : crc8 [0x31#8, 0x32#8, 0x33#8, 0x34#8, 0x35#8, 0x36#8, 0x37#8, 0x38#8, 0x39#8] = 0xBC#8 := by decide +kernel
/-- R81's printed rows, a few entries of each end, and R83 against R82. -/
theorem test_crc_table : crcTable 0x01#8 = 0xD5#8 ∧ crcTable 0x02#8 = 0x7F#8 ∧ crcTable 0x80#8 = 0xEF#8 ∧ crcTable 0xFF#8 = 0xF9#8 ∧
    crcTable 0xC8#8 = 0x5B#8 ∧ crc8Bitwise [0x01#8, 0x02#8, 0x16#8] = 0x46#8 := by decide +kernel
/-- UP-7. -/
theorem test_unpack : (unpack up7).map BitVec.toNat = ch7 := by decide +kernel
/-- UP-2: the top bits of channel 15. -/
theorem test_unpack_top : (unpack (Vector.ofFn fun b => if b.val = 20 then 0xE0#8 else if b.val = 21 then 0xFF#8 else 0#8))
    = Vector.ofFn fun i => if i.val = 15 then 2047#11 else 0#11 := by decide +kernel
/-- UP-7. -/
theorem test_pack : pack ch7 = up7 := by decide +kernel
/-- MP-1, MP-8, MP-4. -/
theorem test_map : mapRaw cfgA 0 = -100 ∧ mapRaw cfgA 1401 = 81900 / 1639 ∧ mapRaw cfgA 173 = -163700 / 1639 := by decide +kernel
/-- DZ-7, DZ-1. -/
theorem test_deadzone : deadzone cfgA 50 = 50 ∧ deadzone cfgA (81900 / 1639) = 0 := by decide +kernel
/-- DZ-3. -/
theorem test_invert : invert (82100 / 1639) true = -82100 / 1639 := by decide +kernel
/-- DZ-3, DZ-5. -/
theorem test_shape : shape cfgA 1402 true = -82100 / 1639 ∧ shape cfgA 582 true = 0 := by decide +kernel
/-- MX-7, MX-13. -/
theorem test_mix : mix (-50) 50 = (-50, -25) ∧ mix 80 (-25) = (60, 80) := by decide +kernel
/-- MX-17. -/
theorem test_mix_clamps : mix 100 (-250) = (-100, 100) := by decide +kernel
/-- MX-7, MX-12. -/
theorem test_split : split (-25) = ⟨25, .reverse⟩ ∧ split 0 = ⟨0, .stop⟩ := by decide +kernel
/-- R91: the frame class leaves its code. -/
theorem test_not_sync : seen (·.lastResult) (exec (.notSync 0#8) (live [] [])) = some (some .notSync) := by decide +kernel
theorem test_unknown_type : seen (·.lastResult) (exec (.unknownType 4#8 2#8 []) (live [] [])) = some (some .unknownType) := by decide +kernel
theorem test_bad_length : seen (·.lastResult) (exec (.rcBadLength 25#8) (live [] [])) = some (some .badLength) := by decide +kernel
/-- R97, R101: `CH` is not written. -/
theorem test_bad_crc : seen (fun s => (s.lastResult, s.ch)) (exec (.rcBadCrc up5 0#8) (live [] [])) = some (some .badCrc, none) := by
  decide +kernel
/-- FD-1. -/
theorem test_rc_channels : seen (·.ch) (exec (.rcChannels up5) (live [] [])) = some (some (Vector.replicate 16 992#11)) := by
  decide +kernel
/-- FD-15: the request of 0 bytes; FD-1 is left. -/
theorem test_try_unknown_length_0 : seen (fun s => (s.lastResult, s.env.rx)) (exec .tryReadFrame (live ([0xC8#8, 0#8, 2#8] ++ fd1) []))
    = some (some .unknownType, fd1) := by decide +kernel
/-- FD-22: `LAST_RESULT` unchanged, 3 bytes consumed. -/
theorem test_try_fatal_body : seen (fun s => (s.lastResult, s.halted, s.env.rx.length))
    (exec .tryReadFrame (at' fd1 [.deliver [] 1, .deliver [] 2, .fatal] [])) = some (none, true, 23) := by decide +kernel
/-- SV-5: the success path and the check take two samples. -/
theorem test_cycle_sv5 : seen (fun s => (s.out, s.mode, s.lastValid)) (exec .cycle (live (fd6 0xF0#8) [1000, 501001]))
    = some ([.motor .left 100 .forward, .motor .right 100 .forward, .motor .left 0 .stop, .motor .right 0 .stop], .failsafe, 1000) := by
  decide +kernel
/-- SV-8. -/
theorem test_cycle_sv8 : seen (fun s => (s.out, s.halted, s.mode)) (exec .cycle (at' [] [.fatal] [])) = some (cleanupEvents, true, .running) := by
  decide +kernel
/-- SV-3. -/
theorem test_check_sv3 : seen (fun s => (s.out, s.mode)) (exec .failsafeCheck (live [] [500001]))
    = some ([.motor .left 0 .stop, .motor .right 0 .stop], .failsafe) := by decide +kernel
/-- SV-2. -/
theorem test_check_sv2 : seen (fun s => (s.out, s.mode)) (exec .failsafeCheck (live [] [500000])) = some ([], .running) := by decide +kernel
/-- SV-7. -/
theorem test_run_sv7 : seen (fun s => (s.out, s.halted)) (exec .run { live [] [] with env := { (live [] []).env with termIn := some 0 } })
    = some (cleanupEvents, true) := by decide +kernel
theorem test_shutdown : seen (fun s => (s.out, s.halted)) (exec .shutdown (live [] [])) = some (cleanupEvents, true) := by decide +kernel
/-- P3, cycle 2: throttle -100, steering 100. -/
theorem test_command : seen (·.out) (exec (.commandFromChannels (Vector.ofFn fun i => if i.val = 0 then 1811#11 else if i.val = 2 then 172#11 else 992#11))
    (live [] [])) = some [.motor .left 100 .reverse, .motor .right 0 .stop] := by decide +kernel
/-- R180. -/
theorem test_reset : seen (fun s => (s.halted, s.lastValid, s.out)) (exec .reset { live [] [7] with halted := true, out := cleanupEvents })
    = some (false, 7, []) := by decide +kernel
/-- P1: `reset`, `rx`, then this one cycle. -/
theorem test_stimulus_p1 : seen (fun s => (s.out, s.ch, s.lastValid, s.env.rx))
    (stimulate (.cycle 1000 1000) (at' (fd6 0xF0#8) [] []))
    = some ([.motor .left 100 .forward, .motor .right 100 .forward], some ch6, 1000, []) := by decide +kernel
/-- R75: FD-6 is `rcframe* 2:1811`. -/
theorem test_rcframe : rcframeStar [(2, 1811)] = some (fd6 0xF0#8) := by decide +kernel
/-- The bounds of log entry 27. -/
theorem test_rcframe_refuses : rcframeStar [(16, 992)] = none ∧ rcframeStar [(2, 1811), (2, 992)] = none := by decide +kernel
/-- R74: a `fatal` given before `reset` is still there for the next `TransportRead`; of two `short` one is left after a cycle of one read. -/
theorem test_stimulus_pending :
    seen (·.env.reads) (stimulate (.reset 0) (at' [] [.fatal] [])) = some [.fatal] ∧
    seen (·.env.reads) (stimulate (.cycle 1 1) (at' [] [.deliver [] 1, .deliver [] 0] [])) = some [.deliver [] 0] := by decide +kernel
/-- R75, R85: `rawframe 16 01 02`, and the bound of log entry 23. -/
theorem test_rawframe : rawframe 0x16#8 [0x01#8, 0x02#8] = some [0xC8#8, 0x04#8, 0x16#8, 0x01#8, 0x02#8, 0xCD#8] ∧
    (rawframe 0x02#8 (List.replicate 253 0#8)).isSome = true ∧ rawframe 0x02#8 (List.replicate 254 0#8) = none := by decide +kernel
/-- The host's question: a table word placed at reset runs as the first step. -/
theorem test_first_step : ∃ t, step (State.reset.withFetchWord 24 0xC81916) = .next t := ⟨_, rfl⟩

/-! ### Witnesses: every hypothesis of an obligation is met, each clause at a boundary of its range -/

theorem witness_DecodeOfEncode : (Instr.rcChannels up5).wf = true ∧ encode (.rcChannels up5) = some fd1 ∧
    (Instr.notSync 0xC9#8).wf = true ∧ encode (.notSync 0xC9#8) = some [0xC9#8] ∧
    (Instr.unknownType 1#8 0x17#8 []).wf = true ∧ encode (.unknownType 1#8 0x17#8 []) = some [0xC8#8, 1#8, 0x17#8] := by decide +kernel

/-- The first clause with a whole frame, the second with a skip that runs out (FD-16). -/
theorem witness_EncodeOfDecode : decode [0xC8#8, 0x02#8, 0x02#8, 0xAA#8] = .instr (.unknownType 2#8 2#8 [0xAA#8]) [] ∧
    decode [0xC8#8, 0x04#8, 0x02#8, 0xAA#8] = .instr (.unknownType 4#8 2#8 [0xAA#8]) [] ∧ (Instr.unknownType 4#8 2#8 [0xAA#8]).wf = false := by
  decide +kernel

/-- The rows' conditions at the ends of the word's range and at the values next to the fixed bytes. -/
theorem witness_TableRowsMatchByMask :
    ((0 : Nat) < 2 ^ 24 ∧ (0 >>> 16) &&& 0xFF ≠ 0xC8) ∧ (0xFFFFFF < 2 ^ 24 ∧ (0xFFFFFF >>> 16) &&& 0xFF ≠ 0xC8) ∧
    (0xC80017 &&& 0xFF0000 = 0xC80000 ∧ 0xC80017 &&& 0xFF ≠ 0x16) ∧
    (0xC81716 &&& 0xFF00FF = 0xC80016 ∧ (0xC81716 >>> 8) &&& 0xFF ≠ 0x18) ∧ 0xC81816 &&& 0xFFFFFF = 0xC81816 := by decide

theorem witness_ChecksumLinearAndDetectsSingleBits : [0x16#8].length = [0xFF#8].length ∧ 0 < 8 * [0x16#8].length ∧ 7 < 8 * [0x16#8].length := by
  decide

theorem witness_PackWritesTheBitStream : (∀ c ∈ (Vector.replicate 16 2047).toList, c ≤ 2047) ∧
    (∃ c ∈ (Vector.replicate 16 2048).toList, 2047 < c) := by decide

/-- Bit 175 of the stream of FD-1's payload, and two ChannelSets that differ in lane 15 alone. -/
theorem witness_LanesAreIndependent :
    (∃ q : Payload, q.toList = flipBit 175 up5.toList) ∧ (∃ q : Payload, q.toList = flipBit 0 up5.toList) ∧
    (ch6.set 15 0#11).toList.getD (live [] []).cfg.throttleCh.toNat 0#11 = ch6.toList.getD (live [] []).cfg.throttleCh.toNat 0#11 ∧
    (ch6.set 15 0#11).toList.getD (live [] []).cfg.steeringCh.toNat 0#11 = ch6.toList.getD (live [] []).cfg.steeringCh.toNat 0#11 :=
  ⟨⟨up5.set 21 (up5[21] ^^^ 0x80#8), by decide +kernel⟩, ⟨up5.set 0 (up5[0] ^^^ 1#8), by decide +kernel⟩, by decide +kernel, by decide +kernel⟩

theorem witness_MapResult : (live [] []).cfg.inMin < (live [] []).cfg.inMax ∧ (172 : Rat) ≤ (live [] []).cfg.inMin ∧
    (live [] []).cfg.inMax ≤ (1811 : Rat) := by decide +kernel

theorem witness_RangesHold : cfgA.inMin < cfgA.inMax := by decide +kernel

/-- Just below the threshold, at it, and a threshold of 0. -/
theorem witness_DeadzoneResult : |(49.999 : Rat)| < (live [] []).cfg.deadzone ∧ (live [] []).cfg.deadzone ≤ |(-50 : Rat)| ∧
    ({ live [] [] with cfg := { cfgA with deadzone := 0 } } : State).cfg.deadzone ≤ 0 := by decide +kernel

theorem witness_ShapeResult : (live [] []).cfg.inMin < (live [] []).cfg.inMax ∧ (live [] []).cfg.outMin = -100 ∧
    (live [] []).cfg.outMax = 100 := by decide +kernel

/-- A range of one point, the boundary between well formed and ill formed; a bundle the check accepts. -/
theorem witness_IllFormedConfigurationRefused :
    ({ live [] [] with cfg := { cfgA with inMax := 172 } } : State).cfg.inMax ≤ ({ live [] [] with cfg := { cfgA with inMax := 172 } } : State).cfg.inMin ∧
    ({ live [] [] with cfg := { cfgA with inMax := 172 } } : State).halted = false ∧ cfgOfBundle bundleA = some cfgA := by decide +kernel

theorem witness_MixResult : (0 : Rat) < 1 / 1000 ∧ (-1 / 1000 : Rat) < 0 := by decide +kernel

theorem witness_MixIsTheProportionalTurn : (-100 : Rat) ≤ -100 ∧ (-100 : Rat) ≤ 100 ∧ (-100 : Rat) ≤ 100 ∧ (100 : Rat) ≤ 100 := by
  decide +kernel

theorem witness_SplitResult : (0 : Rat) < 100 ∧ (-100 : Rat) ≤ 100 ∧ (100 : Rat) ≤ 100 ∧ (-100 : Rat) < 0 := by decide +kernel

theorem witness_FrameClassEffects : (live [] []).halted = false := rfl

theorem witness_DeliversInFull (rx : List Byte) (times : List Time) :
    (live rx times).halted = false ∧ DeliversInFull (live rx times) ∧ NoInternalFault (live rx times) := ⟨rfl, ⟨[], rfl⟩, rfl⟩

/-- Each answer of the decoder at the front of a fully delivered stream. -/
theorem witness_DeliveredAttempts : decode (live fd1 []).env.rx = .instr (.rcChannels up5) [] ∧ decode (live [] []).env.rx = .reject .noData ∧
    decode (live [0xC8#8, 0x18#8] []).env.rx = .reject .shortHeader ∧
    decode (live (fd1.take 25) []).env.rx = .reject .shortBody := by decide +kernel

/-- No byte offered, one header byte of two, two skipped bytes of three, 22 body bytes of 23. -/
theorem witness_ShortReadsEndTheAttempt :
    ((at' fd1 [.deliver [] 0] []).halted = false ∧ NoInternalFault (at' fd1 [.deliver [] 0] []) ∧
      (at' fd1 [.deliver [] 0] []).env.reads = .deliver [] 0 :: []) ∧
    ((at' fd1 [.deliver [] 1, .deliver [] 1] []).env.rx = 0xC8#8 :: fd1.tail ∧ min 1 fd1.tail.length < 2) ∧
    ((at' [0xC8#8, 4#8, 2#8, 0#8, 0#8, 0#8] [.deliver [] 1, .deliver [] 2, .deliver [] 2] []).env.rx = 0xC8#8 :: 4#8 :: 2#8 :: [0#8, 0#8, 0#8] ∧
      2#8 ≠ 0x16#8 ∧ 1 < (4#8).toNat) ∧
    ((at' fd1 [.deliver [] 1, .deliver [] 2, .deliver [] 22] []).env.rx = 0xC8#8 :: 0x18#8 :: 0x16#8 :: fd1.drop 3 ∧
      min 22 (fd1.drop 3).length < 23) :=
  ⟨⟨rfl, rfl, rfl⟩, by decide +kernel, by decide +kernel, by decide +kernel⟩

/-- The fatal answer at the sync read, the header read, the skip read of one byte and the body read. -/
theorem witness_FatalReadShutsDown :
    ((at' [] [.fatal] []).halted = false ∧ (at' [] [.fatal] []).cfg.inMin < (at' [] [.fatal] []).cfg.inMax ∧
      (at' [] [.fatal] []).env.faultIn = none ∧ (at' [] [.fatal] []).env.reads = .fatal :: []) ∧
    (at' [0xC8#8] [.deliver [] 1, .fatal] []).env.rx = 0xC8#8 :: [] ∧
    ((at' [0xC8#8, 2#8, 0x17#8] [.deliver [] 1, .deliver [] 2, .fatal] []).env.rx = 0xC8#8 :: 2#8 :: 0x17#8 :: [] ∧ 0x17#8 ≠ 0x16#8 ∧
      1 < (2#8).toNat) ∧
    (at' (fd1.take 3) [.deliver [] 1, .deliver [] 2, .fatal] []).env.rx = 0xC8#8 :: 0x18#8 :: 0x16#8 :: [] := by decide +kernel

theorem witness_DecodeAttemptFrame : (live fd1 []).halted = false := rfl

theorem witness_BytesConsumedByResult : (at' fd1 [.deliver [] 1, .deliver [] 2, .deliver [] 0] []).halted = false ∧
    NoInternalFault (at' fd1 [.deliver [] 1, .deliver [] 2, .deliver [] 0] []) ∧
    (at' fd1 [.deliver [] 1, .deliver [] 2, .deliver [] 0] []).env.reads = .deliver [] 1 :: .deliver [] 2 :: .deliver [] 0 :: [] := ⟨rfl, rfl, rfl⟩

/-- The last bit of FD-1, and each of the three header bytes. -/
theorem witness_SingleBitMutationIsRejected : encode (.rcChannels up5) = some fd1 ∧ (207 < 208 ∧ flipBit 207 fd1 = fd1.take 25 ++ [0x2D#8]) ∧
    (7 < 208 ∧ flipBit 7 fd1 = 0x48#8 :: fd1.drop 1) ∧ (15 < 208 ∧ flipBit 15 fd1 = 0xC8#8 :: 0x98#8 :: fd1.drop 2) ∧
    (23 < 208 ∧ flipBit 23 fd1 = 0xC8#8 :: 0x18#8 :: 0x96#8 :: fd1.drop 3) := by decide +kernel

/-- A whole unknown frame of the least length byte for its empty skip (1), and FD-1 behind it. -/
theorem witness_FrameAfterUnknownFrameDecodes :
    (at' ([0xC8#8, 1#8, 2#8] ++ fd1 ++ []) (List.replicate 6 (.deliver [] 257)) []).halted = false ∧
    NoInternalFault (at' ([0xC8#8, 1#8, 2#8] ++ fd1 ++ []) (List.replicate 6 (.deliver [] 257)) []) ∧
    (2#8 ≠ 0x16#8 ∧ (1#8).toNat = ([] : List Byte).length + 1 ∧ encode (.rcChannels up5) = some fd1) := ⟨rfl, rfl, by decide +kernel⟩

/-- No internal fault to come, and one that does not strike in the pair. -/
theorem witness_CommandFromChannelsResult : (live [] []).halted = false ∧ (live [] []).cfg.inMin < (live [] []).cfg.inMax ∧
    (live [] []).env.faultIn ≠ some 0 ∧ (withFault 1 (live [] [])).halted = false ∧
    (withFault 1 (live [] [])).cfg.inMin < (withFault 1 (live [] [])).cfg.inMax ∧ (withFault 1 (live [] [])).env.faultIn ≠ some 0 := by
  decide +kernel

/-- At the timeout and one unit after it. -/
theorem witness_FailsafeCheckResult : NoInternalFault (live [] [500001]) ∧ (live [] [500001]).halted = false ∧
    (live [] [500001]).env.times = 500001 :: [] ∧ (500001 : Int) - (live [] [500001]).lastValid > ((live [] [500001]).cfg.failsafeTimeout : Int) ∧
    (500000 : Int) - (live [] [500000]).lastValid ≤ ((live [] [500000]).cfg.failsafeTimeout : Int) :=
  ⟨rfl, rfl, rfl, by decide, by decide⟩

theorem witness_ShutdownResult : (live [] []).halted = false := rfl

theorem witness_ResetResult : (live [] [7]).cfg.inMin < (live [] [7]).cfg.inMax ∧ (live [] [7]).env.times = 7 :: [] := by decide +kernel

/-- An attempt that returns "no frame" and one that returns a ChannelSet. -/
theorem witness_CycleEvents : (live [] []).halted = false ∧ (live [] []).cfg.inMin < (live [] []).cfg.inMax ∧ (live [] []).env.faultIn = none ∧
    seen (fun u => (u.halted, u.ret)) (exec .tryReadFrame (live [] [])) = some (false, some (.frame none)) ∧
    seen (fun u => (u.halted, u.ret)) (exec .tryReadFrame (live fd1 [])) = some (false, some (.frame (some (unpack up5)))) := by decide +kernel

theorem witness_CycleCompletes : (live fd1 []).cfg.inMin < (live fd1 []).cfg.inMax ∧ DeliversInFull (live fd1 []) ∧ (live fd1 []).env.termIn = none ∧
    (live fd1 []).halted = false ∧ NoInternalFault (live fd1 []) := ⟨by decide +kernel, ⟨[], rfl⟩, rfl, rfl, rfl⟩

/-- Termination asserted now, never, and after one more sample. -/
theorem witness_RunTurn : (live [] []).halted = false ∧ (live [] []).cfg.inMin < (live [] []).cfg.inMax ∧ (live [] []).env.termIn = none ∧
    ({ live [] [] with env := { (live [] []).env with termIn := some 0 } } : State).env.termIn = some 0 ∧
    ({ live [] [] with env := { (live [] []).env with termIn := some 1 } } : State).env.termIn = some (0 + 1) := by decide +kernel

theorem witness_RunAlwaysCompletes : State.reset.halted = false ∧ State.reset.cfg.inMin < State.reset.cfg.inMax :=
  ⟨rfl, by decide +kernel⟩

theorem witness_StepRunsTheDecodedFrame : (live fd1 []).halted = false ∧ (live fd1 []).cfg.inMin < (live fd1 []).cfg.inMax ∧
    (live fd1 []).env.termIn = none ∧ decode (live fd1 []).env.rx = .instr (.rcChannels up5) [] ∧ (Instr.rcChannels up5).wf = true := by
  decide +kernel

/-- The mixed pair; and the stop pair of a check one unit past the timeout. -/
theorem witness_InternalFaultInsideThePair :
    ((withFault 0 (live [] [])).halted = false ∧ (withFault 0 (live [] [])).cfg.inMin < (withFault 0 (live [] [])).cfg.inMax ∧
      (withFault 0 (live [] [])).env.faultIn = some 0) ∧
    ((withFault 1 (live [] [500001])).halted = false ∧ (withFault 1 (live [] [500001])).env.faultIn = some 1 ∧
      nowTime (withFault 1 (live [] [500001])) - (withFault 1 (live [] [500001])).lastValid
        > ((withFault 1 (live [] [500001])).cfg.failsafeTimeout : Int)) := by decide +kernel

/-- An attempt that returns a ChannelSet in a cycle that goes stale, with 8 points listed, and one that ends in a fatal read. -/
theorem witness_InternalFaultIsPrecise :
    ((live fd1 [1, 500002]).halted = false ∧ (live fd1 [1, 500002]).cfg.inMin < (live fd1 [1, 500002]).cfg.inMax ∧
      (live fd1 [1, 500002]).env.faultIn = none ∧
      seen (fun u => (u.halted, u.ret, (pointStates (some (unpack up5)) u).length)) (exec .tryReadFrame (live fd1 [1, 500002]))
        = some (false, some (.frame (some (unpack up5))), 8)) ∧
    seen (·.halted) (exec .tryReadFrame (at' [] [.fatal] [])) = some true := by decide +kernel

/-- R166, FD-6 at staleness: between the two stop commands the mixed pair and the left stop stand, then the cleanup. The points before it:
the cycle's start, before the header, the body and the validate phase, before the record, then four of the success path and one of
the check. -/
theorem test_fault_between_stop_commands : seen (·.out) (exec .cycle (withFault 10 (live (fd6 0xF0#8) [1, 500002])))
    = some ([.motor .left 100 .forward, .motor .right 100 .forward, .motor .left 0 .stop] ++ cleanupEvents) := by decide +kernel

/-- A run of one step without a validated frame: at the timeout, and one unit after it. -/
theorem witness_LinkLossBound :
    (∃ t, step (live [] [500000]) = .next t ∧ (!t.halted && decide (t.lastResult ≠ some .ok)) = true) ∧
    nowTime (live [] [500000]) ≤ (live [] [500000]).lastValid + ((live [] [500000]).cfg.failsafeTimeout : Int) ∧
    (∃ t, step (live [] [500001]) = .next t ∧ (!t.halted && decide (t.lastResult ≠ some .ok)) = true) ∧
    nowTime (live [] [500001]) > (live [] [500001]).lastValid + ((live [] [500001]).cfg.failsafeTimeout : Int) :=
  ⟨next_of_seen (by decide +kernel), by decide +kernel, next_of_seen (by decide +kernel), by decide +kernel⟩

theorem witness_HaltedCoreIsStuck : ({ live [] [] with halted := true } : State).halted = true ∧ encode (.notSync 0#8) = some [0#8] := ⟨rfl, rfl⟩

/-- A cycle that validates a frame; a shutdown. -/
theorem witness_WritersOfTheState : (∃ t, exec .cycle (live fd1 [1, 1]) = .next t ∧ decide (t.lastResult = some .ok) = true) ∧
    ∃ t, exec .shutdown (live [] []) = .next t ∧ t.halted = true :=
  ⟨next_of_seen (by decide +kernel), next_of_seen (by decide +kernel)⟩

theorem witness_HistoryOnlyGrows : (∃ t, exec .shutdown (live [] []) = .next t ∧ t.halted = true) ∧ Instr.shutdown ≠ .reset :=
  ⟨next_of_seen (by decide +kernel), by decide⟩

theorem witness_InvariantKeptByEveryStep : Inv (live fd1 [1, 1]) ∧ ∃ t, step (live fd1 [1, 1]) = .next t ∧ decide (t.lastResult = some .ok) = true := by
  refine ⟨?_, next_of_seen (by decide +kernel)⟩
  constructor <;> simp [live, at', State.reset, Cleanup]

end Sys2Proof.Tests
end

section
/-! SUPPORT. `MODE` and `LAST_RESULT` decide nothing (spec 10_state.md R26, R28): two runs that start apart in these two registers alone
stay apart in them alone, statement by statement. -/

namespace Sys2Proof.Machine

open Safety

/-! ### States and flows apart in the two flags -/

/-- The same state with other values of `MODE` and `LAST_RESULT`. -/
def State.withFlags (m : Mode) (r : Option ResultCode) (s : State) : State := { s with mode := m, lastResult := r }

/-- An update that lets the two flags reach no other field; it may write them. -/
def FlagBlindUpdate (g : State → State) : Prop :=
  ∀ s m r, ∃ m' r', g (s.withFlags m r) = (g s).withFlags m' r'

/-- Two flows that end alike, in states apart in the two flags alone. -/
inductive Flow.SameButFlags {α : Type} : Flow α → Flow α → Prop where
  | ok (a : α) (s : State) (m : Mode) (r : Option ResultCode) : SameButFlags (.ok a s) (.ok a (s.withFlags m r))
  | fatal (c : FatalCause) (s : State) (m : Mode) (r : Option ResultCode) : SameButFlags (.fatal c s) (.fatal c (s.withFlags m r))
  | stop (f : Fault) : SameButFlags (.stop f) (.stop f)

/-- An operation that the two flags do not decide. -/
def FlagBlind {α : Type} (f : State → Flow α) : Prop :=
  ∀ s m r, (f s).SameButFlags (f (s.withFlags m r))

section
variable {α β : Type}

theorem Flow.SameButFlags.bind {x y : Flow α} {k : α → State → Flow β} (h : x.SameButFlags y) (hk : ∀ a, FlagBlind (k a)) :
    (x.bind k).SameButFlags (y.bind k) := by
  cases h with
  | ok a s m r => exact hk a s m r
  | fatal c s m r => exact .fatal c s m r
  | stop f => exact .stop f

/-- At its boundary an operation's flow becomes an outcome; shutdown neither reads nor writes the two flags. -/
theorem Flow.SameButFlags.outcome {x y : Flow α} (ret : α → Option Value) (h : x.SameButFlags y) :
    Safety.SameButFlags (x.outcome ret) (y.outcome ret) := by
  cases h <;> rfl

/-- A sequence of statements none of which the two flags decide. -/
theorem FlagBlind.bind {f : State → Flow α} {k : α → State → Flow β} (hf : FlagBlind f) (hk : ∀ a, FlagBlind (k a)) :
    FlagBlind fun s => (f s).bind k :=
  fun s m r => (hf s m r).bind hk

theorem FlagBlind.returns (a : α) {g : State → State} (hg : FlagBlindUpdate g) : FlagBlind fun s => .ok a (g s) := by
  intro s m r
  obtain ⟨m', r', h⟩ := hg s m r
  simpa only [h] using Flow.SameButFlags.ok a (g s) m' r'

theorem FlagBlind.pure (a : α) : FlagBlind fun s => .ok a s := fun s m r => .ok a s m r

theorem FlagBlind.after {f : State → Flow α} {g : State → State} (hf : FlagBlind f) (hg : FlagBlindUpdate g) :
    FlagBlind fun s => f (g s) := by
  intro s m r
  obtain ⟨m', r', h⟩ := hg s m r
  simpa only [h] using hf (g s) m' r'

/-- An operation with an argument taken from the state, where the two flags do not decide the argument. -/
theorem FlagBlind.reading {γ : Type} (f : γ → State → Flow α) {g : State → γ} (hg : ∀ s m r, g (s.withFlags m r) = g s)
    (hf : ∀ c, FlagBlind (f c)) : FlagBlind fun s => f (g s) s := by
  intro s m r
  simpa only [hg] using hf (g s) s m r

end

/-! ### The primitives -/

theorem flagBlind_injectionPoint : FlagBlind injectionPoint := by
  intro s m r
  rcases hf : s.env.faultIn with _ | _ | k <;> simp only [injectionPoint, State.withFlags, hf]
  · exact .ok () s m r
  · exact .fatal .internal _ m r
  · exact .ok () _ m r

theorem flagBlind_transportRead (n : Nat) : FlagBlind (transportRead n) := by
  intro s m r
  by_cases hn : n = 0
  · subst hn
    exact .ok [] s m r
  · rcases ha : s.env.nextRead with ⟨_ | _, e⟩ <;> simp only [transportRead, if_neg hn, State.withFlags, ha]
    · exact .ok _ _ m r
    · exact .fatal .transport _ m r

theorem flagBlindUpdate_setPhase (p : Phase) : FlagBlindUpdate (·.setPhase p) := fun _ m r => ⟨m, r, rfl⟩

theorem flagBlindUpdate_setMotor (w : Side) (v : Rat) (d : Dir) : FlagBlindUpdate (setMotor w v d) := fun _ m r => ⟨m, r, rfl⟩

/-- The write of `MODE`. -/
theorem flagBlindUpdate_setMode (v : Mode) : FlagBlindUpdate (·.setMode v) := fun _ _ r => ⟨v, r, rfl⟩

/-- The writes of `LAST_RESULT`, and of `CH` with it. -/
theorem flagBlindUpdate_record (a : Attempt) : FlagBlindUpdate a.record := by
  intro s m r
  rcases a with c | ⟨_ | _ | _ | _ | _⟩ <;> exact ⟨m, _, rfl⟩

theorem flagBlind_commandPair (l r : MotorCommand) : FlagBlind (commandPair l r) :=
  (flagBlind_injectionPoint.after (flagBlindUpdate_setMotor _ _ _)).bind fun _ => .returns () (flagBlindUpdate_setMotor _ _ _)

/-! ### The decode attempt -/

theorem flagBlind_phaseRead (n : Nat) (p : Phase) : FlagBlind fun s => transportRead n (s.setPhase p) :=
  (flagBlind_transportRead n).after (flagBlindUpdate_setPhase p)

theorem flagBlind_fetchBody : FlagBlind fetchBody := by
  refine flagBlind_injectionPoint.bind fun _ => (flagBlind_phaseRead bodyCount .body).bind fun body => ?_
  split
  · exact .pure _
  · exact flagBlind_injectionPoint.bind fun _ => .returns _ (flagBlindUpdate_setPhase .validate)

theorem flagBlind_fetchSkip (len ty : Byte) : FlagBlind (fetchSkip len ty) :=
  flagBlind_injectionPoint.bind fun _ => (flagBlind_phaseRead (skipCount len) .skip).bind fun _ => .pure _

theorem flagBlind_fetchHeader : FlagBlind fetchHeader := by
  refine flagBlind_injectionPoint.bind fun _ => (flagBlind_phaseRead 2 .header).bind fun h => ?_
  split
  · split
    · exact flagBlind_fetchSkip _ _
    · split
      · exact .pure _
      · exact flagBlind_fetchBody
  · exact .pure _

theorem flagBlind_fetch : FlagBlind fetch := by
  refine (flagBlind_phaseRead 1 .sync).bind fun r => ?_
  split
  · split
    · exact .pure _
    · exact flagBlind_fetchHeader
  · exact .pure _

theorem flagBlind_tryReadFrame : FlagBlind tryReadFrame :=
  flagBlind_fetch.bind fun a => flagBlind_injectionPoint.bind fun _ => .returns a.result (flagBlindUpdate_record a)

/-! ### The supervisor -/

theorem flagBlind_readChannels : FlagBlind readChannels := by
  intro s m r
  rcases hc : s.ch with _ | ch
  · simpa only [readChannels, State.withFlags, hc] using Flow.SameButFlags.stop .unwrittenChannels
  · simpa only [readChannels, State.withFlags, hc] using Flow.SameButFlags.ok ch s m r

theorem flagBlind_commandFromChannels (ch : ChannelSet) : FlagBlind (commandFromChannels ch) :=
  .reading (fun c s => commandPair (split (mixedSpeeds c ch).1) (split (mixedSpeeds c ch).2) (s.setPhase .command))
    (g := State.cfg) (fun _ _ _ => rfl) fun _ => (flagBlind_commandPair _ _).after (flagBlindUpdate_setPhase .command)

/-- The check decides by `LAST_VALID` and the timeout (R145), not by the mode it last wrote. -/
theorem flagBlind_checkAt (tC : Time) : FlagBlind (checkAt tC) := by
  refine .reading (fun b s => if b then (commandPair stopCommand stopCommand s).bind fun _ s =>
      (injectionPoint s).bind fun _ s => .ok () (s.setMode (modeOf true)) else .ok () (s.setMode (modeOf false)))
    (g := fun s => stale tC s.lastValid s.cfg.failsafeTimeout) (fun _ _ _ => rfl) fun isStale => ?_
  split
  · exact (flagBlind_commandPair _ _).bind fun _ => flagBlind_injectionPoint.bind fun _ =>
      .returns () (flagBlindUpdate_setMode _)
  · exact .returns () (flagBlindUpdate_setMode _)

theorem flagBlind_failsafeCheck : FlagBlind failsafeCheck :=
  .reading (fun tC s => (injectionPoint (afterNow (s.setPhase .check))).bind fun _ s' => checkAt tC s')
    (g := nowTime) (fun _ _ _ => rfl) fun tC =>
    (flagBlind_injectionPoint.after fun _ m r => ⟨m, r, rfl⟩).bind fun _ => flagBlind_checkAt tC

theorem flagBlind_commandOnSuccess : FlagBlind commandOnSuccess :=
  (flagBlind_injectionPoint.after fun _ m r => ⟨m, r, rfl⟩).bind fun _ =>
    flagBlind_readChannels.bind fun ch => (flagBlind_commandFromChannels ch).bind fun _ => flagBlind_injectionPoint

theorem flagBlind_afterDecode (r : Option ChannelSet) : FlagBlind (afterDecode r) := by
  refine flagBlind_injectionPoint.bind fun _ => FlagBlind.bind ?_ fun _ => flagBlind_failsafeCheck.bind fun _ =>
    flagBlind_injectionPoint.bind fun _ => .returns () (flagBlindUpdate_setPhase .between)
  cases r with
  | none => exact .pure ()
  | some ch => exact flagBlind_commandOnSuccess

theorem flagBlind_cycle : FlagBlind cycle :=
  flagBlind_injectionPoint.bind fun _ => flagBlind_tryReadFrame.bind flagBlind_afterDecode

/-! ### The instructions -/

section
variable {s : State} {m : Mode} {r : Option ResultCode}

theorem whenLive_sameButFlags {k k' : Host.Outcome State Fault Refusal} (h : SameButFlags k k') :
    SameButFlags (whenLive s k) (whenLive (s.withFlags m r) k') := by
  cases hs : s.halted <;> simp only [whenLive, State.withFlags, hs]
  · exact h
  · rfl

theorem whenConfigured_sameButFlags {k k' : Host.Outcome State Fault Refusal} (h : SameButFlags k k') :
    SameButFlags (whenConfigured s k) (whenConfigured (s.withFlags m r) k') := by
  cases hs : cfgWf s.cfg <;> simp only [whenConfigured, State.withFlags, hs]
  · rfl
  · exact h

theorem returnValue_sameButFlags (v : Value) : SameButFlags (returnValue v s) (returnValue v (s.withFlags m r)) := rfl

theorem execFrame_sameButFlags (f : FrameClass) : SameButFlags (execFrame f s) (execFrame f (s.withFlags m r)) := by
  refine whenLive_sameButFlags ?_
  obtain ⟨m', r', h⟩ := flagBlindUpdate_record (.frame f) s m r
  rw [h]
  rfl

theorem runTurn_sameButFlags : SameButFlags (runTurn s) (runTurn (s.withFlags m r)) := by
  have hc := flagBlind_cycle (afterTermSample s) m r
  cases ht : termRequested s <;> simp only [runTurn, show termRequested (s.withFlags m r) = termRequested s from rfl, ht]
  · exact hc.outcome fun _ => none
  · rfl

theorem exec_sameButFlags (i : Instr) : SameButFlags (exec i s) (exec i (s.withFlags m r)) := by
  cases i with
  | notSync b => exact execFrame_sameButFlags _
  | unknownType len ty skipped => exact execFrame_sameButFlags _
  | rcBadLength len => exact execFrame_sameButFlags _
  | rcBadCrc p c => exact execFrame_sameButFlags _
  | rcChannels p => exact execFrame_sameButFlags _
  | crc8 bs => exact returnValue_sameButFlags _
  | tryReadFrame => exact whenLive_sameButFlags ((flagBlind_tryReadFrame s m r).outcome _)
  | unpack p => exact returnValue_sameButFlags _
  | pack ch =>
    simp only [exec, execPack]
    split
    · exact returnValue_sameButFlags _
    · rfl
  | map raw => exact whenConfigured_sameButFlags (returnValue_sameButFlags _)
  | deadzone v => exact returnValue_sameButFlags _
  | invert v flag => exact returnValue_sameButFlags _
  | shape raw flag => exact whenConfigured_sameButFlags (returnValue_sameButFlags _)
  | mix t st => exact returnValue_sameButFlags _
  | split v => exact returnValue_sameButFlags _
  | run => exact whenLive_sameButFlags (whenConfigured_sameButFlags runTurn_sameButFlags)
  | cycle => exact whenLive_sameButFlags (whenConfigured_sameButFlags ((flagBlind_cycle s m r).outcome _))
  | commandFromChannels ch =>
    exact whenLive_sameButFlags (whenConfigured_sameButFlags ((flagBlind_commandFromChannels ch s m r).outcome _))
  | failsafeCheck => exact whenLive_sameButFlags ((flagBlind_failsafeCheck s m r).outcome _)
  | shutdown => exact whenLive_sameButFlags rfl
  | reset => exact whenConfigured_sameButFlags rfl

end

/-- Settles O47: no statement of the model lets the two flags reach another field, a branch or a stop. -/
theorem modeAndResultDecideNothing : Obligations.ModeAndResultDecideNothing := by
  intro i s m r
  exact ⟨exec_sameButFlags i, exec_sameButFlags .run⟩

end Sys2Proof.Machine
end

section
/-! SUPPORT. Who writes what, over all instructions (spec 10_state.md R21 to R31): one account of everything an instruction may do to the
registers and to the history, which the statements on the writers, on the history and on the read of `CH` all follow from. -/

namespace Sys2Proof.Machine

open Safety

/-! ### The writers -/

/-- The instructions that contain the accept step (R21). -/
def Accepts (i : Instr) : Prop := (∃ p, i = .rcChannels p) ∨ i = .tryReadFrame ∨ i = .cycle ∨ i = .run

/-- The instructions that contain a whole cycle (R25). -/
def RunsCycle (i : Instr) : Prop := i = .cycle ∨ i = .run

/-- The instructions that contain a failsafe check (R26). -/
def Checks (i : Instr) : Prop := i = .failsafeCheck ∨ i = .cycle ∨ i = .run

/-- What `i` may have written on the way from `s` to `t`, the cleanup and reset apart: each register by its writers only, and the history
by commands at its end. -/
structure WritesOf (i : Instr) (s t : State) : Prop where
  cfg : t.cfg = s.cfg
  halted : t.halted = s.halted
  out : ∃ es, t.out = s.out ++ es ∧ Event.release ∉ es
  ch : t.ch = s.ch ∨ (Accepts i ∧ t.lastResult = some .ok ∧ ∃ p, t.ch = some (unpack p))
  lastValid : t.lastValid = s.lastValid ∨ (RunsCycle i ∧ t.lastResult = some .ok)
  mode : t.mode = s.mode ∨ Checks i

section
variable {i : Instr} {s t : State}

theorem WritesOf.refl (i : Instr) (s : State) : WritesOf i s s :=
  ⟨rfl, rfl, ⟨[], by simp, by simp⟩, .inl rfl, .inl rfl, .inl rfl⟩

theorem WritesOf.setEnv (h : WritesOf i s t) (e : Env) : WritesOf i s (t.setEnv e) := { h with }
theorem WritesOf.setPhase (h : WritesOf i s t) (p : Phase) : WritesOf i s (t.setPhase p) := { h with }
theorem WritesOf.setRet (h : WritesOf i s t) (v : Option Value) : WritesOf i s (t.setRet v) := { h with }

/-- A change of the environment first is no write. -/
theorem WritesOf.of_setEnv {e : Env} (h : WritesOf i (s.setEnv e) t) : WritesOf i s t := { h with }

theorem WritesOf.setLastValid (h : WritesOf i s t) (hi : RunsCycle i) (hr : t.lastResult = some .ok) (v : Time) :
    WritesOf i s (t.setLastValid v) := { h with lastValid := .inr ⟨hi, hr⟩ }

theorem WritesOf.setMode (h : WritesOf i s t) (hi : Checks i) (m : Mode) : WritesOf i s (t.setMode m) :=
  { h with mode := .inr hi }

theorem WritesOf.emit_motor (h : WritesOf i s t) (w : Side) (v : Rat) (d : Dir) : WritesOf i s (t.emit (.motor w v d)) := by
  obtain ⟨es, ho, hes⟩ := h.out
  exact { h with out := ⟨es ++ [.motor w v d], by simp [ho], by simpa using hes⟩ }

theorem ReadsOnly.writesOf (i : Instr) (h : ReadsOnly s t) : WritesOf i s t := by
  obtain ⟨e, p, rfl, -⟩ := h
  exact ((WritesOf.refl i s).setEnv e).setPhase p

/-- A result code recorded on a state that was only read to writes no other register. -/
theorem ReadsOnly.writesOf_setLastResult (i : Instr) (h : ReadsOnly s t) (c : ResultCode) : WritesOf i s (t.setLastResult c) := by
  obtain ⟨e, p, rfl, -⟩ := h
  exact { WritesOf.refl i s with ch := .inl rfl, lastValid := .inl rfl }

theorem ReadsOnly.writesOf_accept (h : ReadsOnly s t) (hi : Accepts i) (p : Payload) : WritesOf i s (accept p t) := by
  obtain ⟨e, ph, rfl, -⟩ := h
  exact { WritesOf.refl i s with ch := .inr ⟨hi, rfl, p, rfl⟩, lastValid := .inl rfl }

end

/-! ### The operations -/

/-- A flow that writes as `i` may wherever it returns or faults, and never stops the core. -/
abbrev Flow.WritesOf {α : Type} (i : Instr) (s : State) (x : Flow α) : Prop :=
  x.All (fun _ t => Machine.WritesOf i s t) (Machine.WritesOf i s) False

section
variable {i : Instr} {s t : State}

theorem injectionPoint_writesOf (h : WritesOf i s t) : (injectionPoint t).WritesOf i s := by
  rcases injectionPoint_cases t with ⟨e, hp⟩ | ⟨e, hp⟩ <;> rw [hp] <;> exact h.setEnv e

theorem commandPair_writesOf (h : WritesOf i s t) (l r : MotorCommand) : (commandPair l r t).WritesOf i s := by
  rcases commandPair_cases l r t with ⟨e, hp⟩ | ⟨e, hp⟩ <;> rw [hp]
  · exact ((h.setEnv e).emit_motor _ _ _).emit_motor _ _ _
  · exact (h.setEnv e).emit_motor _ _ _

theorem commandFromChannels_writesOf (i : Instr) (ch : ChannelSet) (s : State) : (commandFromChannels ch s).WritesOf i s :=
  commandPair_writesOf ((WritesOf.refl i s).setPhase .command) _ _

theorem failsafeCheck_writesOf (hi : Checks i) (s : State) : (failsafeCheck s).WritesOf i s := by
  unfold failsafeCheck
  refine Flow.All.bind (injectionPoint_writesOf (((WritesOf.refl i s).setPhase .check).setEnv _)) fun _ t ht => ?_
  unfold checkAt
  split
  · refine Flow.All.bind (commandPair_writesOf ht _ _) fun _ u hu => ?_
    exact Flow.All.bind (injectionPoint_writesOf hu) fun _ v hv => hv.setMode hi _
  · exact ht.setMode hi _

theorem tryReadFrame_writesOf (hi : Accepts i) (s : State) : (tryReadFrame s).WritesOf i s := by
  refine (tryReadFrame_cases s).mono ?_ (fun _ h => h.writesOf i) id
  rintro r t ⟨u, hu, ⟨p, -, rfl⟩ | ⟨-, c, -, rfl⟩⟩
  · exact hu.writesOf_accept hi p
  · exact hu.writesOf_setLastResult i c

/-- What follows the decode attempt writes `LAST_VALID` on a validated frame alone. -/
theorem afterDecode_writesOf (hi : RunsCycle i) {r : Option ChannelSet} (h : WritesOf i s t)
    (hr : r ≠ none → t.lastResult = some .ok ∧ t.ch ≠ none) : (afterDecode r t).WritesOf i s := by
  refine (afterDecode_all (fun u => WritesOf i s u ∧ (r ≠ none → u.lastResult = some .ok)) r t ⟨h, fun h => (hr h).1⟩
    (fun h => (hr h).2) ?_ ?_ ?_ ?_ ?_).mono (fun _ _ h => h.1.1) (fun _ h => h.1) id
  · exact fun u e ⟨hu, ho⟩ => ⟨hu.setEnv e, ho⟩
  · exact fun u p ⟨hu, ho⟩ => ⟨hu.setPhase p, ho⟩
  · exact fun u v hv ⟨hu, ho⟩ => ⟨hu.setLastValid hi (ho hv) v, ho⟩
  · exact fun u m ⟨hu, ho⟩ => ⟨hu.setMode (.inr hi) m, ho⟩
  · exact fun u w v _ _ ⟨hu, ho⟩ => ⟨hu.emit_motor _ _ _, ho⟩

theorem cycle_writesOf (hi : RunsCycle i) (s : State) : (cycle s).WritesOf i s := by
  have hacc : Accepts i := .inr (.inr hi)
  unfold cycle
  refine Flow.All.bind (p := fun _ t => ReadsOnly s t)
    ((injectionPoint_readsOnly s).mono (fun _ _ h => h) (fun _ h => h.writesOf i) id) fun _ t ht => ?_
  refine Flow.All.bind (((tryReadFrame_cases t).mono (fun _ _ h => h) (fun _ h => (ht.trans h).writesOf i) id)) ?_
  rintro r _ ⟨u, hu, ⟨p, rfl, rfl⟩ | ⟨rfl, c, -, rfl⟩⟩
  · exact afterDecode_writesOf hi ((ht.trans hu).writesOf_accept hacc p) fun _ => ⟨rfl, by simp [accept]⟩
  · exact afterDecode_writesOf hi ((ht.trans hu).writesOf_setLastResult i c) fun h => absurd rfl h

end

/-! ### The instructions -/

/-- An outcome of `i` from `s`: the writes of `i`, with the cleanup behind them or not; no fault but that of a halted core. -/
def OutcomeOf (i : Instr) (s : State) : Host.Outcome State Fault Refusal → Prop
  | .next t => ∃ u, WritesOf i s u ∧ (t = u ∨ t = shutdown u)
  | .fault f => f = .halted
  | .refused _ => True

section
variable {i : Instr} {s : State}

theorem Flow.WritesOf.outcome {α : Type} {x : Flow α} (h : x.WritesOf i s) (ret : α → Option Value) :
    OutcomeOf i s (x.outcome ret) := by
  cases x with
  | ok a t => exact ⟨_, Machine.WritesOf.setRet h _, .inl rfl⟩
  | fatal c t => exact ⟨t, h, .inr rfl⟩
  | stop f => exact h.elim

theorem whenLive_outcomeOf {k : Host.Outcome State Fault Refusal} (h : OutcomeOf i s k) : OutcomeOf i s (whenLive s k) := by
  unfold whenLive
  split
  · rfl
  · exact h

theorem whenConfigured_outcomeOf {k : Host.Outcome State Fault Refusal} (h : OutcomeOf i s k) :
    OutcomeOf i s (whenConfigured s k) := by
  unfold whenConfigured
  split
  · exact h
  · trivial

theorem returnValue_outcomeOf (i : Instr) (v : Value) (s : State) : OutcomeOf i s (returnValue v s) :=
  ⟨_, (WritesOf.refl i s).setRet _, .inl rfl⟩

theorem execFrame_outcomeOf (f : FrameClass) (s : State) : OutcomeOf f.instr s (execFrame f s) := by
  refine whenLive_outcomeOf ⟨_, WritesOf.setRet ?_ _, .inl rfl⟩
  cases f with
  | rcChannels p => exact (ReadsOnly.refl s).writesOf_accept (.inl ⟨p, rfl⟩) p
  | _ => exact (ReadsOnly.refl s).writesOf_setLastResult _ _

theorem runTurn_outcomeOf (s : State) : OutcomeOf .run s (runTurn s) := by
  unfold runTurn
  split
  · exact ⟨_, (WritesOf.refl _ s).setEnv _, .inr rfl⟩
  · refine Flow.WritesOf.outcome ?_ _
    exact (cycle_writesOf (.inr rfl) (afterTermSample s)).mono (fun _ _ h => h.of_setEnv) (fun _ h => h.of_setEnv) id

/-- Every instruction but the reset of a new run. -/
theorem exec_outcomeOf (i : Instr) (s : State) (hi : i ≠ .reset) : OutcomeOf i s (exec i s) := by
  cases i with
  | notSync b => exact execFrame_outcomeOf (.notSync b) s
  | unknownType len ty skipped => exact execFrame_outcomeOf (.unknownType len ty skipped) s
  | rcBadLength len => exact execFrame_outcomeOf (.rcBadLength len) s
  | rcBadCrc p c => exact execFrame_outcomeOf (.rcBadCrc p c) s
  | rcChannels p => exact execFrame_outcomeOf (.rcChannels p) s
  | crc8 bs => exact returnValue_outcomeOf _ _ s
  | tryReadFrame => exact whenLive_outcomeOf ((tryReadFrame_writesOf (.inr (.inl rfl)) s).outcome _)
  | unpack p => exact returnValue_outcomeOf _ _ s
  | pack ch =>
    simp only [exec, execPack]
    split
    · exact returnValue_outcomeOf _ _ s
    · trivial
  | map raw => exact whenConfigured_outcomeOf (returnValue_outcomeOf _ _ s)
  | deadzone v => exact returnValue_outcomeOf _ _ s
  | invert v flag => exact returnValue_outcomeOf _ _ s
  | shape raw flag => exact whenConfigured_outcomeOf (returnValue_outcomeOf _ _ s)
  | mix t st => exact returnValue_outcomeOf _ _ s
  | split v => exact returnValue_outcomeOf _ _ s
  | run => exact whenLive_outcomeOf (whenConfigured_outcomeOf (runTurn_outcomeOf s))
  | cycle => exact whenLive_outcomeOf (whenConfigured_outcomeOf ((cycle_writesOf (.inl rfl) s).outcome _))
  | commandFromChannels ch =>
    exact whenLive_outcomeOf (whenConfigured_outcomeOf ((commandFromChannels_writesOf _ ch s).outcome _))
  | failsafeCheck => exact whenLive_outcomeOf ((failsafeCheck_writesOf (.inl rfl) s).outcome _)
  | shutdown => exact whenLive_outcomeOf ⟨s, WritesOf.refl _ s, .inr rfl⟩
  | reset => exact absurd rfl hi

/-- The writes of an instruction that gives a next state, and whether the cleanup stands behind them. -/
theorem exec_writesOf {t : State} (h : exec i s = .next t) (hi : i ≠ .reset) :
    ∃ u, WritesOf i s u ∧ (t = u ∨ t = Machine.shutdown u) := by
  have ho := exec_outcomeOf i s hi
  rwa [h] at ho

theorem exec_reset_eq_next {t : State} (h : exec .reset s = .next t) : t = resetState s := by
  obtain ⟨-, hk⟩ := whenConfigured_eq_next h
  cases hk
  rfl

end

/-! ### The statements -/

/-- Settles O44: a cycle reads `CH` only after its own accept step. -/
theorem channelsNeverReadUnwritten : Obligations.ChannelsNeverReadUnwritten := by
  intro i s h
  by_cases hi : i = .reset
  · subst hi
    simp only [exec, execReset, whenConfigured] at h
    split at h <;> cases h
  · have ho := exec_outcomeOf i s hi
    rw [h] at ho
    cases ho

/-- Settles O45, from what each instruction may write; the cleanup leaves all but `HALTED` and the history as they are. -/
theorem writersOfTheState : Obligations.WritersOfTheState := by
  intro i s t h
  by_cases hi : i = .reset
  · subst hi
    cases exec_reset_eq_next h
    exact ⟨rfl, .inr (.inl ⟨rfl, rfl⟩), .inr (.inl rfl), .inr (.inr (.inr (.inr ⟨rfl, rfl⟩))), .inr (.inl ⟨rfl, rfl⟩)⟩
  · obtain ⟨u, hu, ht⟩ := exec_writesOf h hi
    have hmode : u.mode = s.mode ∨ i = .failsafeCheck ∨ i = .cycle ∨ i = .run ∨ (i = .reset ∧ u.mode = .running) :=
      hu.mode.imp_right (·.imp_right (·.imp_right .inl))
    rcases ht with rfl | rfl
    · exact ⟨hu.cfg, hu.ch.imp_right .inr, hu.lastValid.imp_right .inr, hmode, .inl hu.halted⟩
    · obtain ⟨es, ho, hes⟩ := hu.out
      refine ⟨hu.cfg, hu.ch.imp_right .inr, hu.lastValid.imp_right .inr, hmode, .inr (.inr ⟨rfl, es, ?_, hes⟩)⟩
      rw [shutdown_out, ho]
      rfl

/-- Settles O46: commands and the cleanup are appended. -/
theorem historyOnlyGrows : Obligations.HistoryOnlyGrows := by
  intro i s t h hi
  obtain ⟨u, hu, ht⟩ := exec_writesOf h hi
  obtain ⟨es, ho, -⟩ := hu.out
  rcases ht with rfl | rfl
  · exact ⟨es, ho.symm⟩
  · exact ⟨es ++ shutdownEvents, by rw [shutdown_out, ho, List.append_assoc]; rfl⟩

end Sys2Proof.Machine
end

section
/-! SUPPORT. The decoder as a table of classes (spec 30_encoding.md R68, R69): its stages put together for a stream with a whole
header, and the bytes a header word of the opcode table stands for. -/

namespace Sys2Proof.Machine

/-! ### The body at the front of a longer stream -/

theorem payloadOf_take_bodyCount (more : List Byte) : payloadOf (more.take bodyCount) = payloadOf more := by
  ext i hi
  simp [payloadOf, bodyCount, List.getElem?_take_of_lt (show i < 23 by omega)]

theorem checksumOf_take_bodyCount (more : List Byte) : checksumOf (more.take bodyCount) = checksumOf more := by
  simp [checksumOf, bodyCount, List.getElem?_take_of_lt]

/-- The bytes the checksum covers, as they stand in the stream. -/
theorem coveredBytes_payloadOf {more : List Byte} (h : bodyCount ≤ more.length) :
    coveredBytes (payloadOf more) = rcType :: more.take 22 := by
  have hbody := payloadOf_toList_append (more.take bodyCount) (List.length_take_of_le h)
  rw [payloadOf_take_bodyCount] at hbody
  have htake : (payloadOf more).toList = (more.take bodyCount).take 22 := by
    rw [← hbody, List.take_left' (by simp)]
  rw [coveredBytes, htake, List.take_take]
  rfl

/-! ### The stages of the decoder on a whole body -/

/-- The class of the body at the front, in terms of the whole stream behind the header. -/
theorem decodeHeader_whole {more : List Byte} (h : bodyCount ≤ more.length) :
    decodeHeader rcLength rcType more =
      .instr (if crc8 (rcType :: more.take 22) = checksumOf more then FrameClass.rcChannels (payloadOf more)
        else .rcBadCrc (payloadOf more) (checksumOf more)).instr (more.drop bodyCount) := by
  conv_lhs => rw [← List.take_append_drop bodyCount more, decodeHeader_body (more.take bodyCount) _ (List.length_take_of_le h)]
  rw [classifyBody, payloadOf_take_bodyCount, checksumOf_take_bodyCount, coveredBytes_payloadOf h]

theorem decodeHeader_badCrc {more : List Byte} (h : bodyCount ≤ more.length)
    (hc : checksumOf more ≠ crc8 (rcType :: more.take 22)) :
    decodeHeader rcLength rcType more = .instr (.rcBadCrc (payloadOf more) (checksumOf more)) (more.drop bodyCount) := by
  rw [decodeHeader_whole h, if_neg (Ne.symm hc), FrameClass.instr]

theorem decodeHeader_goodCrc {more : List Byte} (h : bodyCount ≤ more.length)
    (hc : checksumOf more = crc8 (rcType :: more.take 22)) :
    decodeHeader rcLength rcType more = .instr (.rcChannels (payloadOf more)) (more.drop bodyCount) := by
  rw [decodeHeader_whole h, if_pos hc.symm, FrameClass.instr]

/-- Settles O2: one stage of the decoder for each class, in the order of the priorities. -/
theorem classesFollowPriority : Obligations.ClassesFollowPriority := by
  intro b0 len ty more
  split
  · next hsync => exact decode_notSync hsync _
  next hsync =>
  obtain rfl : b0 = syncByte := not_not.mp hsync
  rw [decode_sync]
  split
  · next htype => exact decodeHeader_unknown htype more
  next htype =>
  obtain rfl : ty = rcType := not_not.mp htype
  split
  · next hlen => exact decodeHeader_badLength hlen more
  next hlen =>
  obtain rfl : len = rcLength := not_not.mp hlen
  split
  · next hshort => exact decodeHeader_short hshort
  next hshort =>
  have hbody : bodyCount ≤ more.length := not_lt.mp hshort
  split
  · next hcrc => exact decodeHeader_badCrc hbody hcrc
  · next hcrc => exact decodeHeader_goodCrc hbody (not_not.mp hcrc)

/-! ### The header words of the opcode table -/

/-- R69: a 24-bit header word is its three bytes, the first one most significant, with zero bytes behind them. -/
theorem framedWord_header (w : Nat) :
    framedWord 24 w =
      BitVec.ofNat 8 (w >>> 16) :: BitVec.ofNat 8 (w >>> 8) :: BitVec.ofNat 8 w :: List.replicate 254 0#8 := rfl

theorem byte_eq_iff (n c : Nat) : BitVec.ofNat 8 n = BitVec.ofNat 8 c ↔ n &&& 0xFF = c &&& 0xFF := by
  rw [← BitVec.toNat_inj, BitVec.toNat_ofNat, BitVec.toNat_ofNat, Nat.and_two_pow_sub_one_eq_mod n 8,
    Nat.and_two_pow_sub_one_eq_mod c 8]

/-- A byte that the mask covers whole is the byte of the value. -/
theorem byte_eq_of_mask {w mask value : Nat} {b : Byte} (k : Nat) (h : w &&& mask = value)
    (hm : mask >>> k &&& 0xFF = 0xFF) (hb : BitVec.ofNat 8 (value >>> k) = b) : BitVec.ofNat 8 (w >>> k) = b := by
  rw [← hb, byte_eq_iff, ← h, Nat.shiftRight_and_distrib, Nat.and_assoc, hm]

/-- The bytes skipped behind the header are there whatever the length byte, and are zero. -/
theorem take_skipCount_zeros (n : Nat) :
    (List.replicate 254 0#8).take (skipCount (BitVec.ofNat 8 n)) = List.replicate (n % 256 - 1) 0#8 := by
  rw [List.take_replicate, skipCount, BitVec.toNat_ofNat]
  congr 1
  omega

/-- A good header with zero bytes behind it is a frame whose checksum byte is wrong (log entry 9). -/
theorem classifyBody_zeros :
    classifyBody (List.replicate 23 0#8) = .rcBadCrc (Vector.replicate 22 0#8) 0#8 := by decide +kernel

theorem decodeTableWord_notSync {w : Nat} (h : BitVec.ofNat 8 (w >>> 16) ≠ syncByte) :
    decodeTableWord 24 w = some (.notSync (BitVec.ofNat 8 (w >>> 16))) := by
  rw [decodeTableWord, framedWord_header, decode_notSync h, Decoded.instr?]

/-- Behind a sync byte the word's other two bytes are the header. -/
theorem decodeTableWord_sync {w : Nat} (h : BitVec.ofNat 8 (w >>> 16) = syncByte) :
    decodeTableWord 24 w =
      (decodeHeader (BitVec.ofNat 8 (w >>> 8)) (BitVec.ofNat 8 w) (List.replicate 254 0#8)).instr? := by
  rw [decodeTableWord, framedWord_header, h, decode_sync]

/-- Settles O5: a row's mask fixes the bytes its class is known by; the row's condition is the stage of the decoder. -/
theorem tableRowsMatchByMask : Obligations.TableRowsMatchByMask := by
  intro w _
  refine ⟨fun hsync => ?_, fun hm htype => ?_, fun hm hlen => ?_, fun hm => ?_⟩
  · exact decodeTableWord_notSync fun h => hsync ((byte_eq_iff _ 0xC8).mp h)
  · have hty : BitVec.ofNat 8 w ≠ rcType := fun h => htype ((byte_eq_iff _ 0x16).mp h)
    rw [decodeTableWord_sync (byte_eq_of_mask 16 hm rfl rfl), decodeHeader_unknown hty, take_skipCount_zeros, Decoded.instr?]
  · have hty : BitVec.ofNat 8 w = rcType := byte_eq_of_mask 0 hm rfl rfl
    have hl : BitVec.ofNat 8 (w >>> 8) ≠ rcLength := fun h => hlen ((byte_eq_iff _ 0x18).mp h)
    rw [decodeTableWord_sync (byte_eq_of_mask 16 hm rfl rfl), hty, decodeHeader_badLength hl, Decoded.instr?]
  · have hty : BitVec.ofNat 8 w = rcType := byte_eq_of_mask 0 hm rfl rfl
    have hl : BitVec.ofNat 8 (w >>> 8) = rcLength := byte_eq_of_mask 8 hm rfl rfl
    have hbody : List.replicate 254 0#8 = List.replicate 23 0#8 ++ List.replicate 231 0#8 := by simp
    rw [decodeTableWord_sync (byte_eq_of_mask 16 hm rfl rfl), hty, hl, hbody, decodeHeader_body _ _ (by simp),
      classifyBody_zeros, FrameClass.instr, Decoded.instr?]

end Sys2Proof.Machine
end

section
/-! SUPPORT. The checksum operation (spec 40_checksum.md): the instruction's effect, and R82's loop as a fold of the table. -/

namespace Sys2Proof.Machine

/-- R80, R82: the checksum is the returned value, and nothing else of the state changes. -/
theorem exec_crc8 (bs : List Byte) (s : State) : exec (.crc8 bs) s = .next (s.setRet (some (.byte (crc8 bs)))) := rfl

theorem crcFrom_eq_foldl (c : Byte) (bs : List Byte) : crcFrom c bs = bs.foldl (fun c b => crcTable (c ^^^ b)) c := by
  induction bs generalizing c with
  | nil => rfl
  | cons b bs ih => rw [crcFrom, ih, List.foldl_cons]

theorem crc8_eq_foldl (bs : List Byte) : crc8 bs = bs.foldl (fun c b => crcTable (c ^^^ b)) 0x00#8 :=
  crcFrom_eq_foldl _ bs

/-- R85: the three table look-ups give `CD`. -/
theorem crc8_namedVector : crc8 [0x16#8, 0x01#8, 0x02#8] = 0xCD#8 := by decide +kernel

/-- Settles O6: the loop from a running value is the fold from it, by induction on the bytes. -/
theorem checksumResult : Obligations.ChecksumResult := by
  intro bs s
  rw [exec_crc8, crc8_eq_foldl, State.setRet]

/-- Settles O7: the effect of the instruction at the vector's value. -/
theorem checksumNamedVector : Obligations.ChecksumNamedVector := by
  intro s
  rw [exec_crc8, crc8_namedVector, State.setRet]

end Sys2Proof.Machine
end

section
/-! SUPPORT. The Frame Decoder where the host injects no internal fault (spec 41_frame_decoder.md R90 to R100): what each read of an
attempt returns and leaves when no new byte arrives at it, stage by stage, and what the attempt comes to. -/

namespace Sys2Proof.Machine

open Safety

/-! ### The state a read leaves -/

/-- The state in phase `p` with this stream and these answers to come: all that the reads of an attempt change. -/
def State.atRead (p : Phase) (rx : List Byte) (reads : List ReadAnswer) (s : State) : State :=
  { s with phase := p, env := { s.env with rx := rx, reads := reads } }

section
variable (s : State) (p q : Phase) (rx rx' : List Byte) (reads reads' : List ReadAnswer)

@[simp] theorem State.atRead_atRead : (s.atRead p rx reads).atRead q rx' reads' = s.atRead q rx' reads' := rfl
@[simp] theorem State.atRead_setPhase : (s.atRead p rx reads).setPhase q = s.atRead q rx reads := rfl
@[simp] theorem State.atRead_rx : (s.atRead p rx reads).env.rx = rx := rfl
@[simp] theorem State.atRead_reads : (s.atRead p rx reads).env.reads = reads := rfl
@[simp] theorem State.atRead_halted : (s.atRead p rx reads).halted = s.halted := rfl

theorem noFrame_eq_atRead (code : ResultCode) :
    noFrame code p rx reads s = ((s.atRead p rx reads).setLastResult code).setRet (some (.frame none)) := rfl

theorem fatalRead_eq_atRead : fatalRead p rx reads s = shutdownEnd (s.atRead p rx reads) := rfl

end

theorem noInternalFault_atRead {s : State} {p : Phase} {rx : List Byte} {reads : List ReadAnswer} (h : NoInternalFault s) :
    NoInternalFault (s.atRead p rx reads) := h

section
variable {s : State} {n k : Nat} {more : List ReadAnswer}

/-- R14, R43: a read at which no byte arrives takes from the front of the stream what the request and the answer both allow. -/
theorem transportRead_delivered (p : Phase) (hn : n ≠ 0) (hr : s.env.reads = .deliver [] k :: more) :
    transportRead n (s.setPhase p) =
      .ok (s.env.rx.take (min n k)) (s.atRead p (s.env.rx.drop (min n k)) more) := by
  simp [transportRead, hn, Env.nextRead, hr, State.setEnv, State.setPhase, State.atRead]

/-- R46: a fatal answer takes nothing from the stream. -/
theorem transportRead_fatal (p : Phase) (hn : n ≠ 0) (hr : s.env.reads = .fatal :: more) :
    transportRead n (s.setPhase p) = .fatal .transport (s.atRead p s.env.rx more) := by
  simp [transportRead, hn, Env.nextRead, hr, State.setEnv, State.setPhase, State.atRead]

end

/-- A short read leaves the same stream whether the answer or the end of the stream cut it short. -/
theorem drop_min_of_short {n k : Nat} {l : List Byte} (h : min k l.length < n) : l.drop (min n k) = l.drop k := by
  rcases Nat.le_total k n with hk | hk
  · rw [Nat.min_eq_right hk]
  · rw [Nat.min_eq_left hk, List.drop_eq_nil_of_le (by omega), List.drop_eq_nil_of_le (by omega)]

/-! ### The stages of an attempt -/

section
variable {s : State} {k : Nat} {rest : List Byte} {more : List ReadAnswer} {len ty : Byte}

/-- R91: no byte is returned. -/
theorem fetch_noData (hr : s.env.reads = .deliver [] k :: more) (h : k = 0 ∨ s.env.rx = []) :
    fetch s = .ok (.short .noData) (s.atRead .sync s.env.rx more) := by
  rw [fetch, transportRead_delivered .sync one_ne_zero hr]
  rcases h with rfl | h
  · rfl
  · simp [h]

/-- R91: the byte at the sync phase decides whether the header is read. -/
theorem fetch_byte {b : Byte} (hr : s.env.reads = .deliver [] (k + 1) :: more) (hrx : s.env.rx = b :: rest) :
    fetch s = if b ≠ syncByte then .ok (.frame (.notSync b)) (s.atRead .sync rest more)
      else fetchHeader (s.atRead .sync rest more) := by
  rw [fetch, transportRead_delivered .sync one_ne_zero hr, hrx, Nat.min_eq_left (Nat.le_add_left 1 k)]
  rfl

theorem fetch_sync (hr : s.env.reads = .deliver [] (k + 1) :: more) (hrx : s.env.rx = syncByte :: rest) :
    fetch s = fetchHeader (s.atRead .sync rest more) := by
  rw [fetch_byte hr hrx, if_neg (not_not.mpr rfl)]

/-- R100: a fatal sync read. -/
theorem fetch_fatal (hr : s.env.reads = .fatal :: more) : fetch s = .fatal .transport (s.atRead .sync s.env.rx more) := by
  rw [fetch, transportRead_fatal .sync one_ne_zero hr, Flow.bind_fatal]

section
variable (hf : NoInternalFault s)
include hf

/-- R92: fewer than two header bytes are returned. -/
theorem fetchHeader_short (hr : s.env.reads = .deliver [] k :: more) (h : min k s.env.rx.length < 2) :
    fetchHeader s = .ok (.short .shortHeader) (s.atRead .header (s.env.rx.drop k) more) := by
  have hlen : (s.env.rx.take (min 2 k)).length < 2 := by
    rw [List.length_take]
    omega
  rw [fetchHeader, injectionPoint_none hf, Flow.bind_ok, transportRead_delivered .header two_ne_zero hr, Flow.bind_ok,
    drop_min_of_short h]
  match s.env.rx.take (min 2 k), hlen with
  | [], _ => rfl
  | [_], _ => rfl

/-- R94, R95, R96: behind a whole header the type is checked before the length (R168). -/
theorem fetchHeader_whole (hr : s.env.reads = .deliver [] (k + 2) :: more) (hrx : s.env.rx = len :: ty :: rest) :
    fetchHeader s =
      if ty ≠ rcType then fetchSkip len ty (s.atRead .header rest more)
      else if len ≠ rcLength then .ok (.frame (.rcBadLength len)) (s.atRead .header rest more)
      else fetchBody (s.atRead .header rest more) := by
  rw [fetchHeader, injectionPoint_none hf, Flow.bind_ok, transportRead_delivered .header two_ne_zero hr, hrx,
    Nat.min_eq_left (Nat.le_add_left 2 k)]
  rfl

/-- R100: a fatal header read. -/
theorem fetchHeader_fatal (hr : s.env.reads = .fatal :: more) :
    fetchHeader s = .fatal .transport (s.atRead .header s.env.rx more) := by
  rw [fetchHeader, injectionPoint_none hf, Flow.bind_ok, transportRead_fatal .header two_ne_zero hr, Flow.bind_fatal]

/-- R94: one skip request; what it returns is consumed, whether it is all of the frame or not. -/
theorem fetchSkip_delivered (hlen : skipCount len ≠ 0) (hr : s.env.reads = .deliver [] k :: more) :
    fetchSkip len ty s = .ok (.frame (.unknownType len ty (s.env.rx.take (min (skipCount len) k))))
      (s.atRead .skip (s.env.rx.drop (min (skipCount len) k)) more) := by
  rw [fetchSkip, injectionPoint_none hf, Flow.bind_ok, transportRead_delivered .skip hlen hr, Flow.bind_ok]

/-- D19: a request of 0 bytes draws no answer. -/
theorem fetchSkip_empty (hlen : skipCount len = 0) :
    fetchSkip len ty s = .ok (.frame (.unknownType len ty [])) (s.atRead .skip s.env.rx s.env.reads) := by
  rw [fetchSkip, injectionPoint_none hf, Flow.bind_ok, hlen, transportRead_zero, Flow.bind_ok]
  rfl

/-- R100: a fatal skip read. -/
theorem fetchSkip_fatal (hlen : skipCount len ≠ 0) (hr : s.env.reads = .fatal :: more) :
    fetchSkip len ty s = .fatal .transport (s.atRead .skip s.env.rx more) := by
  rw [fetchSkip, injectionPoint_none hf, Flow.bind_ok, transportRead_fatal .skip hlen hr, Flow.bind_fatal]

/-- R96: fewer than 23 body bytes are returned. -/
theorem fetchBody_short (hr : s.env.reads = .deliver [] k :: more) (h : min k s.env.rx.length < bodyCount) :
    fetchBody s = .ok (.short .shortBody) (s.atRead .body (s.env.rx.drop k) more) := by
  have hlen : (s.env.rx.take (min bodyCount k)).length < bodyCount := by
    rw [List.length_take]
    omega
  rw [fetchBody, injectionPoint_none hf, Flow.bind_ok, transportRead_delivered .body (by decide) hr, Flow.bind_ok,
    if_pos hlen, drop_min_of_short h]

/-- R97, R98: a whole body is classified by its checksum. -/
theorem fetchBody_whole (hr : s.env.reads = .deliver [] k :: more) (h : bodyCount ≤ min k s.env.rx.length) :
    fetchBody s = .ok (.frame (classifyBody (s.env.rx.take bodyCount)))
      (s.atRead .validate (s.env.rx.drop bodyCount) more) := by
  have hmin : min bodyCount k = bodyCount := by omega
  have hlen : ¬ (s.env.rx.take bodyCount).length < bodyCount := by
    rw [List.length_take]
    omega
  rw [fetchBody, injectionPoint_none hf, Flow.bind_ok, transportRead_delivered .body (by decide) hr, Flow.bind_ok, hmin,
    if_neg hlen, injectionPoint_none (noInternalFault_atRead hf), Flow.bind_ok, State.atRead_setPhase]

/-- R100: a fatal body read. -/
theorem fetchBody_fatal (hr : s.env.reads = .fatal :: more) :
    fetchBody s = .fatal .transport (s.atRead .body s.env.rx more) := by
  rw [fetchBody, injectionPoint_none hf, Flow.bind_ok, transportRead_fatal .body (by decide) hr, Flow.bind_fatal]

/-! ### The stages up to the third read -/

section
variable {k0 k1 : Nat} (hr : s.env.reads = .deliver [] (k0 + 1) :: .deliver [] (k1 + 2) :: more)
include hr

theorem fetch_unknown (hrx : s.env.rx = syncByte :: len :: ty :: rest) (hty : ty ≠ rcType) :
    fetch s = fetchSkip len ty (s.atRead .header rest more) := by
  rw [fetch_sync hr hrx, fetchHeader_whole (noInternalFault_atRead hf) rfl rfl, if_pos hty, State.atRead_atRead]

theorem fetch_badLength (hrx : s.env.rx = syncByte :: len :: rcType :: rest) (hlen : len ≠ rcLength) :
    fetch s = .ok (.frame (.rcBadLength len)) (s.atRead .header rest more) := by
  rw [fetch_sync hr hrx, fetchHeader_whole (noInternalFault_atRead hf) rfl rfl, if_neg (not_not.mpr rfl), if_pos hlen,
    State.atRead_atRead]

theorem fetch_rcHeader (hrx : s.env.rx = syncByte :: rcLength :: rcType :: rest) :
    fetch s = fetchBody (s.atRead .header rest more) := by
  rw [fetch_sync hr hrx, fetchHeader_whole (noInternalFault_atRead hf) rfl rfl, if_neg (not_not.mpr rfl), if_neg (not_not.mpr rfl),
    State.atRead_atRead]

end

end

end

/-! ### What an attempt comes to -/

/-- The result code an attempt records (R161). -/
def Attempt.code : Attempt → ResultCode
  | .short code => code
  | .frame (.notSync _) => .notSync
  | .frame (.unknownType _ _ _) => .unknownType
  | .frame (.rcBadLength _) => .badLength
  | .frame (.rcBadCrc _ _) => .badCrc
  | .frame (.rcChannels _) => .ok

@[simp] theorem Attempt.record_lastResult (a : Attempt) (s : State) : (a.record s).lastResult = some a.code := by
  rcases a with code | ⟨_ | _ | _ | _ | _⟩ <;> rfl

@[simp] theorem Attempt.record_env (a : Attempt) (s : State) : (a.record s).env = s.env := by
  rcases a with code | ⟨_ | _ | _ | _ | _⟩ <;> rfl

/-- R101: without a ChannelSet to return, the result code is all that is recorded. -/
theorem Attempt.record_of_result_none {a : Attempt} (h : a.result = none) (s : State) :
    a.record s = s.setLastResult a.code := by
  rcases a with code | ⟨_ | _ | _ | _ | p⟩
  case frame.rcChannels => cases h
  all_goals rfl

/-- The effect of a frame class in a live core: its record, and its result returned. -/
theorem execFrame_live {s : State} (hs : s.halted = false) (f : FrameClass) :
    execFrame f s = .next (((Attempt.frame f).record s).setRet (some (.frame (Attempt.frame f).result))) :=
  whenLive_live hs

section
variable {s : State} (hs : s.halted = false)
include hs

/-- An attempt whose reads come to `a`: its record, and its result returned. -/
theorem exec_tryReadFrame_of_fetch {t : State} {a : Attempt} (ht : NoInternalFault t) (h : fetch s = .ok a t) :
    exec .tryReadFrame s = .next ((a.record t).setRet (some (.frame a.result))) := by
  rw [exec, execTryReadFrame, whenLive_live hs, tryReadFrame, h, Flow.bind_ok, injectionPoint_none ht, Flow.bind_ok,
    Flow.outcome_ok]

variable {p : Phase} {rx : List Byte} {reads : List ReadAnswer} (hf : NoInternalFault s)
include hf

theorem exec_tryReadFrame_noFrame {a : Attempt} (ha : a.result = none) (h : fetch s = .ok a (s.atRead p rx reads)) :
    exec .tryReadFrame s = .next (noFrame a.code p rx reads s) := by
  rw [exec_tryReadFrame_of_fetch hs (noInternalFault_atRead hf) h, Attempt.record_of_result_none ha, ha, noFrame_eq_atRead]

/-- R165: an attempt with a fatal read goes to shutdown from where the read was, alone and in a cycle. -/
theorem exec_of_fetch_fatal {i : Instr} {c : FatalCause} (hc : s.cfg.inMin < s.cfg.inMax)
    (hi : i = .tryReadFrame ∨ i = .cycle) (h : fetch s = .fatal c (s.atRead p rx reads)) :
    exec i s = .next (fatalRead p rx reads s) := by
  have hattempt : tryReadFrame s = .fatal c (s.atRead p rx reads) := by rw [tryReadFrame, h, Flow.bind_fatal]
  rw [fatalRead_eq_atRead, ← shutdown_eq_shutdownEnd]
  rcases hi with rfl | rfl
  · rw [exec, execTryReadFrame, whenLive_live hs, hattempt, Flow.outcome_fatal]
  · rw [exec, execCycle, whenLive_live hs, whenConfigured_wf (decide_eq_true hc), cycle, injectionPoint_none hf, Flow.bind_ok,
      hattempt, Flow.bind_fatal, Flow.outcome_fatal]

end

/-! ### The effects and the frame of an attempt -/

/-- Settles O22: the record of each class, in a live core. -/
theorem frameClassEffects : Obligations.FrameClassEffects := by
  intro s hs
  refine ⟨fun b => ?_, fun len ty skipped => ?_, fun len => ?_, fun p c => ?_, fun p => ?_⟩
  · exact execFrame_live hs (.notSync b)
  · exact execFrame_live hs (.unknownType len ty skipped)
  · exact execFrame_live hs (.rcBadLength len)
  · exact execFrame_live hs (.rcBadCrc p c)
  · exact execFrame_live hs (.rcChannels p)

/-- Settles O26, from the three ways an attempt can end. -/
theorem decodeAttemptFrame : Obligations.DecodeAttemptFrame := by
  intro s hs
  have hends := tryReadFrame_cases s
  rw [exec, execTryReadFrame, whenLive_live hs]
  cases hx : tryReadFrame s with
  | ok r t =>
    rw [hx] at hends
    obtain ⟨u, hu, ⟨p, rfl, rfl⟩ | ⟨rfl, c, hc, rfl⟩⟩ := hends
    · exact ⟨_, rfl, hu.lastValid, hu.mode, hu.cfg, .inr (.inl ⟨hu.halted.trans hs, hu.out, rfl, p, rfl, rfl⟩)⟩
    · exact ⟨_, rfl, hu.lastValid, hu.mode, hu.cfg,
        .inl ⟨hu.halted.trans hs, hu.out, rfl, hu.ch, fun h => hc (Option.some.inj h), Option.some_ne_none c⟩⟩
  | fatal c t =>
    rw [hx] at hends
    have hu : ReadsOnly s t := hends
    refine ⟨_, rfl, hu.lastValid, hu.mode, hu.cfg, .inr (.inr ⟨rfl, ?_, hu.ch, hu.lastResult, rfl⟩)⟩
    exact (shutdown_out t).trans (congrArg (· ++ shutdownEvents) hu.out)
  | stop f =>
    rw [hx] at hends
    exact hends.elim

/-! ### Short and fatal reads -/

theorem skipCount_ne_zero {len : Byte} (h : 1 < len.toNat) : skipCount len ≠ 0 := Nat.sub_ne_zero_of_lt h

/-- Settles O24: the stage of the decoder at which each read falls short. -/
theorem shortReadsEndTheAttempt : Obligations.ShortReadsEndTheAttempt := by
  intro s more rest k k0 k1 hs hf
  refine ⟨fun hr h => ?_, fun hr hrx h => ?_, fun len ty hr hrx hty hlen => ?_, fun hr hrx h => ?_⟩
  · exact exec_tryReadFrame_noFrame hs hf rfl (fetch_noData hr h)
  · exact exec_tryReadFrame_noFrame hs hf rfl
      ((fetch_sync hr hrx).trans (fetchHeader_short (noInternalFault_atRead hf) rfl h))
  · exact exec_tryReadFrame_noFrame hs hf rfl ((fetch_unknown hf hr hrx hty).trans
      (fetchSkip_delivered (noInternalFault_atRead hf) (skipCount_ne_zero hlen) rfl))
  · exact exec_tryReadFrame_noFrame hs hf rfl
      ((fetch_rcHeader hf hr hrx).trans (fetchBody_short (noInternalFault_atRead hf) rfl h))

/-- Settles O25: the stage of the decoder at which each read is fatal. -/
theorem fatalReadShutsDown : Obligations.FatalReadShutsDown := by
  intro s more rest len ty k0 k1 i hs hc hf hi
  refine ⟨fun hr => ?_, fun hr hrx => ?_, fun hr hrx hty hlen => ?_, fun hr hrx => ?_⟩
  · exact exec_of_fetch_fatal hs hf hc hi (fetch_fatal hr)
  · exact exec_of_fetch_fatal hs hf hc hi ((fetch_sync hr hrx).trans (fetchHeader_fatal (noInternalFault_atRead hf) rfl))
  · exact exec_of_fetch_fatal hs hf hc hi ((fetch_unknown hf hr hrx hty).trans
      (fetchSkip_fatal (noInternalFault_atRead hf) (skipCount_ne_zero hlen) rfl))
  · exact exec_of_fetch_fatal hs hf hc hi
      ((fetch_rcHeader hf hr hrx).trans (fetchBody_fatal (noInternalFault_atRead hf) rfl))

/-! ### The bytes consumed -/

/-- R161: an attempt from `s` whose reads come to `a` consumes bytes off the front of the stream, as many as the code of `a` says. -/
def FetchConsumes (s : State) : Prop :=
  ∃ (a : Attempt) (p : Phase) (c rx : List Byte) (reads : List ReadAnswer),
    fetch s = .ok a (s.atRead p rx reads) ∧ s.env.rx = c ++ rx ∧ ConsumedAs c a.code

theorem classifyBody_cases (body : List Byte) :
    (∃ p, classifyBody body = .rcChannels p) ∨ (∃ p c, classifyBody body = .rcBadCrc p c) := by
  by_cases hc : crc8 (coveredBytes (payloadOf body)) = checksumOf body
  · exact .inl ⟨_, if_pos hc⟩
  · exact .inr ⟨_, _, if_neg hc⟩

section
variable {s : State} {k0 k1 k2 : Nat} {more : List ReadAnswer} {rest : List Byte} {len ty : Byte} (hf : NoInternalFault s)
include hf

/-- R92: at most one byte of the header is lost with the sync byte. -/
theorem fetch_consumes_shortHeader (hr : s.env.reads = .deliver [] (k0 + 1) :: .deliver [] k1 :: more)
    (hrx : s.env.rx = syncByte :: rest) (h : min k1 rest.length < 2) : FetchConsumes s := by
  refine ⟨_, _, syncByte :: rest.take k1, _, _,
    (fetch_sync hr hrx).trans (fetchHeader_short (noInternalFault_atRead hf) rfl h), ?_, ?_⟩
  · rw [hrx, List.cons_append, State.atRead_rx, List.take_append_drop]
  · simp only [ConsumedAs, Attempt.code, List.length_cons, List.length_take]
    omega

/-- R94: the header, and at most as many bytes as the skip asks for. -/
theorem fetch_consumes_unknown
    (hr : s.env.reads = .deliver [] (k0 + 1) :: .deliver [] (k1 + 2) :: .deliver [] k2 :: more)
    (hrx : s.env.rx = syncByte :: len :: ty :: rest) (hty : ty ≠ rcType) : FetchConsumes s := by
  have hfetch := fetch_unknown hf hr hrx hty
  by_cases hlen : skipCount len = 0
  · refine ⟨_, _, [syncByte, len, ty], _, _, hfetch.trans (fetchSkip_empty (noInternalFault_atRead hf) hlen), hrx, ?_⟩
    simp [ConsumedAs, Attempt.code]
  · refine ⟨_, _, syncByte :: len :: ty :: rest.take (min (skipCount len) k2), _, _,
      hfetch.trans (fetchSkip_delivered (noInternalFault_atRead hf) hlen rfl), ?_, ?_⟩
    · simp [hrx]
    · simp only [ConsumedAs, Attempt.code, List.length_cons, List.length_take, List.getD_cons_succ, List.getD_cons_zero, skipCount]
      omega

/-- R96 to R98: the header and the body, or what there is of it. -/
theorem fetch_consumes_body
    (hr : s.env.reads = .deliver [] (k0 + 1) :: .deliver [] (k1 + 2) :: .deliver [] k2 :: more)
    (hrx : s.env.rx = syncByte :: rcLength :: rcType :: rest) : FetchConsumes s := by
  have hfetch := fetch_rcHeader hf hr hrx
  rcases Nat.lt_or_ge (min k2 rest.length) bodyCount with hshort | hwhole
  · refine ⟨_, _, syncByte :: rcLength :: rcType :: rest.take k2, _, _,
      hfetch.trans (fetchBody_short (noInternalFault_atRead hf) rfl hshort), ?_, ?_⟩
    · simp [hrx]
    · simp only [bodyCount] at hshort
      simp only [ConsumedAs, Attempt.code, List.length_cons, List.length_take]
      omega
  · have hbody := hfetch.trans (fetchBody_whole (noInternalFault_atRead hf) rfl hwhole)
    have hstream : s.env.rx = (syncByte :: rcLength :: rcType :: rest.take bodyCount) ++ rest.drop bodyCount := by simp [hrx]
    have hlength : (syncByte :: rcLength :: rcType :: rest.take bodyCount).length = 26 := by
      simp only [List.length_cons, List.length_take, bodyCount] at hwhole ⊢
      omega
    rcases classifyBody_cases (rest.take bodyCount) with ⟨p, hclass⟩ | ⟨p, c, hclass⟩
    · rw [State.atRead_rx, State.atRead_atRead, hclass] at hbody
      exact ⟨_, _, _, _, _, hbody, hstream, hlength⟩
    · rw [State.atRead_rx, State.atRead_atRead, hclass] at hbody
      exact ⟨_, _, _, _, _, hbody, hstream, hlength⟩

/-- R99: every attempt, by the stage it ends in. -/
theorem fetch_consumes (hr : s.env.reads = .deliver [] k0 :: .deliver [] k1 :: .deliver [] k2 :: more) : FetchConsumes s := by
  by_cases hnone : k0 = 0 ∨ s.env.rx = []
  · exact ⟨_, _, [], _, _, fetch_noData hr hnone, rfl, rfl⟩
  obtain ⟨hk0, hne⟩ := not_or.mp hnone
  obtain ⟨k0, rfl⟩ := Nat.exists_eq_succ_of_ne_zero hk0
  obtain ⟨b, rest, hrx⟩ := List.exists_cons_of_ne_nil hne
  by_cases hsync : b = syncByte
  swap
  · exact ⟨_, _, [b], _, _, (fetch_byte hr hrx).trans (if_pos hsync), hrx, rfl⟩
  subst hsync
  rcases Nat.lt_or_ge (min k1 rest.length) 2 with hshort | hwhole
  · exact fetch_consumes_shortHeader hf hr hrx hshort
  obtain ⟨k1, rfl⟩ := Nat.exists_eq_add_of_le' (hwhole.trans (Nat.min_le_left _ _))
  obtain ⟨len, ty, rest, rfl⟩ : ∃ len ty more, rest = len :: ty :: more := by
    match rest, hwhole.trans (Nat.min_le_right _ _) with
    | len :: ty :: more, _ => exact ⟨len, ty, more, rfl⟩
  by_cases hty : ty = rcType
  swap
  · exact fetch_consumes_unknown hf hr hrx hty
  subst hty
  by_cases hlen : len = rcLength
  swap
  · exact ⟨_, _, [syncByte, len, rcType], _, _, fetch_badLength hf hr hrx hlen, hrx, rfl⟩
  subst hlen
  exact fetch_consumes_body hf hr hrx

end

/-- Settles O27: what the reads consumed is what the attempt consumed. -/
theorem bytesConsumedByResult : Obligations.BytesConsumedByResult := by
  intro s k0 k1 k2 more hs hf hr
  obtain ⟨a, p, c, rx, reads, hfetch, hrx, hconsumed⟩ := fetch_consumes hf hr
  refine ⟨_, c, a.code, exec_tryReadFrame_of_fetch hs (noInternalFault_atRead hf) hfetch, ?_, ?_, hconsumed⟩
  · rw [State.setRet_lastResult, Attempt.record_lastResult]
  · rw [State.setRet_env, Attempt.record_env, State.atRead_rx, hrx]

/-! ### A frame right after an unknown frame -/

/-- R98: the body of a validated frame. -/
theorem classifyBody_rcChannels (p : Payload) :
    classifyBody (p.toList ++ [crc8 (coveredBytes p)]) = .rcChannels p := by
  rw [classifyBody, payloadOf_append, checksumOf_append, if_pos rfl]

/-- The answers of the full-delivery transport (R74) allow every request of an attempt. -/
theorem fullDelivery_append (more : List ReadAnswer) :
    fullDelivery ++ more =
      .deliver [] (256 + 1) :: .deliver [] (255 + 2) :: .deliver [] longestFrame :: more := rfl

section
variable {s : State} {more : List ReadAnswer} {rest : List Byte} (hf : NoInternalFault s)
  (hr : s.env.reads = fullDelivery ++ more)
include hf hr

/-- R98: the reads of a validated frame, delivered whole. -/
theorem fetch_rcChannels {f : List Byte} {p : Payload} (hp : encode (.rcChannels p) = some f) (hrx : s.env.rx = f ++ rest) :
    fetch s = .ok (.frame (.rcChannels p)) (s.atRead .validate rest more) := by
  obtain rfl := Option.some.inj hp
  have hrx' : s.env.rx = syncByte :: rcLength :: rcType :: (p.toList ++ [crc8 (coveredBytes p)] ++ rest) := hrx
  have hbody : (p.toList ++ [crc8 (coveredBytes p)]).length = bodyCount := by simp [bodyCount]
  have hwhole : bodyCount ≤ min longestFrame (p.toList ++ [crc8 (coveredBytes p)] ++ rest).length := by
    rw [List.length_append, hbody]
    exact le_min (by decide) (Nat.le_add_right _ _)
  rw [fetch_rcHeader hf (hr.trans (fullDelivery_append more)) hrx', fetchBody_whole (noInternalFault_atRead hf) rfl hwhole,
    State.atRead_rx, List.take_left' hbody, List.drop_left' hbody, classifyBody_rcChannels, State.atRead_atRead]

/-- R94: the reads of an unknown frame whose length byte is right, delivered whole; an empty skip leaves its answer (D19). -/
theorem fetch_unknownType {len ty : Byte} {skipped : List Byte} (hty : ty ≠ rcType) (hlen : len.toNat = skipped.length + 1)
    (hrx : s.env.rx = syncByte :: len :: ty :: (skipped ++ rest)) :
    fetch s = .ok (.frame (.unknownType len ty skipped))
      (s.atRead .skip rest (if skipped = [] then .deliver [] longestFrame :: more else more)) := by
  have hskip : skipCount len = skipped.length := by rw [skipCount, hlen, Nat.add_sub_cancel]
  rw [fetch_unknown hf (hr.trans (fullDelivery_append more)) hrx hty]
  by_cases hempty : skipped = []
  · subst hempty
    rw [fetchSkip_empty (noInternalFault_atRead hf) hskip, if_pos rfl]
    rfl
  · have hpos : skipCount len ≠ 0 := hskip ▸ (List.length_pos_of_ne_nil hempty).ne'
    have hfits : skipped.length ≤ longestFrame := by
      have := len.isLt
      simp only [longestFrame]
      omega
    rw [fetchSkip_delivered (noInternalFault_atRead hf) hpos rfl, if_neg hempty, hskip, Nat.min_eq_left hfits, State.atRead_rx,
      List.take_left, List.drop_left, State.atRead_atRead]

end

/-- R98: an attempt on a validated frame, delivered whole. -/
theorem exec_tryReadFrame_rcChannels {s : State} {more : List ReadAnswer} {f rest : List Byte} {p : Payload} (hs : s.halted = false)
    (hf : NoInternalFault s) (hr : s.env.reads = fullDelivery ++ more) (hp : encode (.rcChannels p) = some f)
    (hrx : s.env.rx = f ++ rest) :
    exec .tryReadFrame s =
      .next ((accept p (s.atRead .validate rest more)).setRet (some (.frame (some (unpack p))))) :=
  exec_tryReadFrame_of_fetch hs (noInternalFault_atRead hf) (fetch_rcChannels hf hr hp hrx)

/-- Settles O29: the first attempt leaves the stream at the second frame, and a full delivery or more to come. -/
theorem frameAfterUnknownFrameDecodes : Obligations.FrameAfterUnknownFrameDecodes := by
  intro s len ty skipped f rest p more hs hf hr hty hlen hp hrx
  have hr' : s.env.reads = fullDelivery ++ (fullDelivery ++ more) := hr
  have hrx' : s.env.rx = syncByte :: len :: ty :: (skipped ++ (f ++ rest)) := by
    rw [hrx, List.append_assoc, List.cons_append, List.cons_append, List.cons_append, syncByte]
  obtain ⟨more', hleft⟩ : ∃ more',
      (if skipped = [] then .deliver [] longestFrame :: (fullDelivery ++ more) else fullDelivery ++ more) =
        fullDelivery ++ more' := by
    split
    · exact ⟨.deliver [] longestFrame :: more, rfl⟩
    · exact ⟨more, rfl⟩
  have hfirst := fetch_unknownType hf hr' hty hlen hrx'
  rw [hleft] at hfirst
  have hsecond := exec_tryReadFrame_rcChannels (s := noFrame .unknownType .skip (f ++ rest) (fullDelivery ++ more') s)
    (more := more') (rest := rest) hs hf rfl hp rfl
  exact ⟨_, _, exec_tryReadFrame_noFrame hs hf rfl hfirst, rfl, rfl, rfl, hsecond, rfl, rfl, rfl⟩

end Sys2Proof.Machine
end

section
/-! SUPPORT. The channel unpacker and its inverse (spec 30_encoding.md R66, R67; 42_channel_unpacker.md R110 to R112): splitting a number
into fields and joining fields undo each other, so `Unpack` and `Pack` read one number in two widths. -/

namespace Sys2Proof.Machine

/-! ### Fields of a number -/

section
variable {w i P x : Nat} {xs : List Nat}

theorem fieldAt_lt : fieldAt w i P < 2 ^ w := Nat.mod_lt _ (Nat.two_pow_pos w)

theorem fieldAt_zero : fieldAt w 0 P = P % 2 ^ w := rfl

theorem fieldAt_succ : fieldAt w (i + 1) P = fieldAt w i (P >>> w) := by
  rw [fieldAt, fieldAt, ← Nat.shiftRight_add, Nat.mul_succ, Nat.add_comm]

theorem joinFields_cons_mod (hx : x < 2 ^ w) : joinFields w (x :: xs) % 2 ^ w = x := by
  rw [joinFields, Nat.shiftLeft_eq, Nat.add_mul_mod_self_right, Nat.mod_eq_of_lt hx]

theorem joinFields_cons_shiftRight (hx : x < 2 ^ w) : joinFields w (x :: xs) >>> w = joinFields w xs := by
  rw [joinFields, Nat.shiftLeft_eq, Nat.shiftRight_eq_div_pow, Nat.add_mul_div_right _ _ (Nat.two_pow_pos w),
    Nat.div_eq_of_lt hx, Nat.zero_add]

theorem joinFields_lt (h : ∀ x ∈ xs, x < 2 ^ w) : joinFields w xs < 2 ^ (w * xs.length) := by
  induction xs with
  | nil => exact Nat.one_pos
  | cons x xs ih =>
    obtain ⟨hx, hxs⟩ := List.forall_mem_cons.mp h
    rw [List.length_cons, Nat.mul_succ, Nat.pow_add, ← Nat.div_lt_iff_lt_mul (Nat.two_pow_pos w), ← Nat.shiftRight_eq_div_pow,
      joinFields_cons_shiftRight hx]
    exact ih hxs

theorem fieldAt_joinFields (h : ∀ x ∈ xs, x < 2 ^ w) : fieldAt w i (joinFields w xs) = xs.getD i 0 := by
  induction xs generalizing i with
  | nil => simp [joinFields, fieldAt]
  | cons x xs ih =>
    obtain ⟨hx, hxs⟩ := List.forall_mem_cons.mp h
    cases i with
    | zero => exact joinFields_cons_mod hx
    | succ i => rw [fieldAt_succ, joinFields_cons_shiftRight hx, ih hxs, List.getD_cons_succ]

theorem joinFields_fieldAt (n : Nat) (h : P < 2 ^ (w * n)) : joinFields w (List.ofFn fun i : Fin n => fieldAt w i P) = P := by
  induction n generalizing P with
  | zero => exact (Nat.lt_one_iff.mp h).symm
  | succ n ih =>
    have hrest : P >>> w < 2 ^ (w * n) := by
      rwa [Nat.shiftRight_eq_div_pow, Nat.div_lt_iff_lt_mul (Nat.two_pow_pos w), ← Nat.pow_add]
    calc joinFields w (List.ofFn fun i : Fin (n + 1) => fieldAt w i P)
        = P % 2 ^ w + (P >>> w) <<< w := by simp [List.ofFn_succ, joinFields, fieldAt_zero, fieldAt_succ, ih hrest]
      _ = P := by rw [Nat.shiftLeft_eq, Nat.shiftRight_eq_div_pow, Nat.mod_add_div']

end

/-! ### The payload's and the channels' value -/

theorem payloadBytes_lt (p : Payload) : ∀ x ∈ p.toList.map BitVec.toNat, x < 2 ^ 8 :=
  List.forall_mem_map.mpr fun b _ => b.isLt

theorem channelNats_lt (ch : ChannelSet) : ∀ x ∈ (channelNats ch).toList, x < 2 ^ 11 := by
  rw [channelNats, Vector.toList_map]
  exact List.forall_mem_map.mpr fun c _ => c.isLt

theorem payloadValue_lt (p : Payload) : payloadValue p < 2 ^ (11 * 16) := by
  simpa [payloadValue] using joinFields_lt (payloadBytes_lt p)

theorem channelsValue_lt {ch : Vector Nat 16} (h : ∀ x ∈ ch.toList, x < 2 ^ 11) : channelsValue ch < 2 ^ (8 * 22) := by
  simpa [channelsValue] using joinFields_lt h

/-- R66: bit `k` of the stream. -/
theorem testBit_payloadValue (p : Payload) (k : Nat) :
    (payloadValue p).testBit k = (p.toList.getD (k / 8) 0#8).getLsbD (k % 8) := by
  rw [payloadValue, testBit_joinFields 8 (by decide) _ (payloadBytes_lt p)]
  exact congrArg (Nat.testBit · (k % 8)) (List.getD_map _ 0#8 BitVec.toNat)

/-- R111: bit `k` of the stream the channels make. -/
theorem testBit_channelsValue {ch : Vector Nat 16} (h : ∀ x ∈ ch.toList, x < 2 ^ 11) (k : Nat) :
    (channelsValue ch).testBit k = (ch.toList.getD (k / 11) 0).testBit (k % 11) :=
  testBit_joinFields 11 (by decide) _ h k

theorem getLsbD_fieldAt {w j : Nat} (i P : Nat) (hj : j < w) : (BitVec.ofNat w (fieldAt w i P)).getLsbD j = P.testBit (w * i + j) := by
  rw [BitVec.getLsbD_ofNat, decide_eq_true hj, Bool.true_and, testBit_fieldAt i P hj]

theorem getLsbD_unpack (p : Payload) {i j : Nat} (hi : i < 16) (hj : j < 11) :
    ((unpack p).toList.getD i 0#11).getLsbD j = (payloadValue p).testBit (11 * i + j) := by
  rw [← getLsbD_fieldAt i _ hj]
  simp [unpack, hi]

theorem getLsbD_pack (ch : Vector Nat 16) {b j : Nat} (hb : b < 22) (hj : j < 8) :
    ((pack ch).toList.getD b 0#8).getLsbD j = (channelsValue ch).testBit (8 * b + j) := by
  rw [← getLsbD_fieldAt b _ hj]
  simp [pack, hb]

/-! ### Round trips -/

/-- Packed bytes hold the channels' number whole: 16 channels of 11 bits are 22 bytes. -/
theorem payloadValue_pack {ch : Vector Nat 16} (h : ∀ x ∈ ch.toList, x < 2 ^ 11) : payloadValue (pack ch) = channelsValue ch := by
  have hbytes : (pack ch).toList.map BitVec.toNat = List.ofFn fun b : Fin 22 => fieldAt 8 b (channelsValue ch) := by
    rw [pack, Vector.toList_ofFn, List.map_ofFn]
    exact congrArg List.ofFn (funext fun b => Nat.mod_eq_of_lt fieldAt_lt)
  rw [payloadValue, hbytes, joinFields_fieldAt 22 (channelsValue_lt h)]

/-- The channels hold the payload's number whole. -/
theorem channelsValue_unpack (p : Payload) : channelsValue (channelNats (unpack p)) = payloadValue p := by
  have hlanes : (channelNats (unpack p)).toList = List.ofFn fun i : Fin 16 => fieldAt 11 i (payloadValue p) := by
    rw [channelNats, unpack, Vector.toList_map, Vector.toList_ofFn, List.map_ofFn]
    exact congrArg List.ofFn (funext fun i => Nat.mod_eq_of_lt fieldAt_lt)
  rw [channelsValue, hlanes, joinFields_fieldAt 16 (payloadValue_lt p)]

/-- R112, from channels to bytes and back. -/
theorem unpack_pack (ch : ChannelSet) : unpack (pack (channelNats ch)) = ch := by
  ext1 i hi
  rw [unpack, payloadValue_pack (channelNats_lt ch), Vector.getElem_ofFn, channelsValue, fieldAt_joinFields (channelNats_lt ch)]
  simp [channelNats, hi]

/-- R112, from bytes to channels and back. -/
theorem pack_unpack (p : Payload) : pack (channelNats (unpack p)) = p := by
  ext1 b hb
  rw [pack, channelsValue_unpack, Vector.getElem_ofFn, payloadValue, fieldAt_joinFields (payloadBytes_lt p)]
  simp [hb]

/-! ### The two operations -/

/-- R110: the channels are the returned value, and nothing else of the state changes. -/
theorem exec_unpack (p : Payload) (s : State) : exec (.unpack p) s = .next (s.setRet (some (.channels (unpack p)))) := rfl

theorem packInDomain_iff {ch : Vector Nat 16} : packInDomain ch = true ↔ ∀ c ∈ ch.toList, c ≤ 2047 := by
  simp only [packInDomain, List.all_eq_true, decide_eq_true_eq]

/-- R111: in the operand's domain the packed bytes are the returned value. -/
theorem exec_pack {ch : Vector Nat 16} (h : ∀ c ∈ ch.toList, c ≤ 2047) (s : State) :
    exec (.pack ch) s = .next (s.setRet (some (.payload (pack ch)))) := if_pos (packInDomain_iff.mpr h)

theorem exec_pack_outOfDomain {ch : Vector Nat 16} (h : ∃ c ∈ ch.toList, 2047 < c) (s : State) :
    exec (.pack ch) s = .refused .packOutOfDomain := by
  obtain ⟨c, hc, hlarge⟩ := h
  exact if_neg fun hin => Nat.not_le.mpr hlarge (packInDomain_iff.mp hin c hc)

theorem exec_pack_channelNats (ch : ChannelSet) (s : State) :
    exec (.pack (ch.map BitVec.toNat)) s = .next (s.setRet (some (.payload (pack (channelNats ch))))) :=
  exec_pack (fun c hc => Nat.le_of_lt_succ (channelNats_lt ch c hc)) s

/-- Settles O11: each operation returns what the other one started from. -/
theorem packUnpackRoundTrip : Obligations.PackUnpackRoundTrip := by
  refine ⟨fun ch s => ⟨pack (channelNats ch), exec_pack_channelNats ch s, ?_⟩, fun p s => ⟨unpack p, exec_unpack p s, ?_⟩⟩
  · rw [exec_unpack, unpack_pack, State.setRet]
  · rw [exec_pack_channelNats, pack_unpack, State.setRet]

/-- Settles O9: a channel's bits are the payload value's, and these are the payload bytes'. -/
theorem unpackReadsTheBitStream : Obligations.UnpackReadsTheBitStream := by
  refine fun p s => ⟨unpack p, exec_unpack p s, fun i j hi hj => ?_⟩
  rw [getLsbD_unpack p hi hj, testBit_payloadValue]

/-- Settles O10: a packed byte's bits are the channels value's, and these are the channels'; above 2047 the domain check refuses. -/
theorem packWritesTheBitStream : Obligations.PackWritesTheBitStream := by
  refine fun ch s => ⟨fun h => ⟨pack ch, exec_pack h s, fun b j hb hj => ?_⟩, fun h => exec_pack_outOfDomain h s⟩
  rw [getLsbD_pack ch hb hj, testBit_channelsValue fun c hc => Nat.lt_succ_of_le (h c hc)]

end Sys2Proof.Machine
end

section
/-! SUPPORT. The Channel Mapper, deadzone and inversion (spec 43_channel_mapper.md): deadzone and inversion act on the magnitude and
the sign, so they commute and neither takes a value farther from 0. -/

namespace Sys2Proof.Machine

variable {c : Cfg} {s : State} {v raw : Rat} {flag : Bool}

/-! ### The map -/

/-- R13: with its ends in order, a clamp answers between them. -/
theorem clamp_mem_Icc {lo hi : Rat} (h : lo ≤ hi) : clamp v lo hi ∈ Set.Icc lo hi :=
  ⟨le_min (le_max_right v lo) h, min_le_right _ _⟩

/-- R120: the clamped operand's place in the input range is the result's place in the output range. -/
theorem mapRaw_mem_uIcc (hc : c.inMin < c.inMax) : mapRaw c raw ∈ Set.uIcc c.outMin c.outMax := by
  obtain ⟨hlo, hhi⟩ := clamp_mem_Icc (v := raw) hc.le
  have hspan : 0 < c.inMax - c.inMin := sub_pos.mpr hc
  rw [← segment_eq_uIcc, segment_eq_image']
  refine ⟨(clamp raw c.inMin c.inMax - c.inMin) / (c.inMax - c.inMin), ⟨?_, ?_⟩, ?_⟩
  · exact div_nonneg (sub_nonneg.mpr hlo) hspan.le
  · exact (div_le_one hspan).mpr (sub_le_sub_right hhi _)
  · simp only [mapRaw, smul_eq_mul, div_mul_eq_mul_div]

/-- R120: the default output range. -/
theorem abs_mapRaw_le (hc : c.inMin < c.inMax) (hmin : c.outMin = -100) (hmax : c.outMax = 100) : |mapRaw c raw| ≤ 100 := by
  have h := mapRaw_mem_uIcc (raw := raw) hc
  rw [hmin, hmax, Set.uIcc_of_le (by norm_num)] at h
  exact abs_le.mpr h

/-! ### The deadzone -/

theorem deadzone_below (h : |v| < c.deadzone) : deadzone c v = 0 := if_pos h

theorem deadzone_atLeast (h : c.deadzone ≤ |v|) : deadzone c v = v := if_neg h.not_gt

theorem abs_deadzone_le : |deadzone c v| ≤ |v| := by
  rcases lt_or_ge |v| c.deadzone with h | h
  · rw [deadzone_below h, abs_zero]
    exact abs_nonneg v
  · rw [deadzone_atLeast h]

/-! ### The inversion -/

@[simp] theorem invert_true : invert v true = -v := rfl

@[simp] theorem invert_false : invert v false = v := rfl

@[simp] theorem invert_zero : invert 0 flag = 0 := by
  cases flag
  · exact invert_false
  · exact invert_true.trans neg_zero

@[simp] theorem abs_invert : |invert v flag| = |v| := by
  cases flag
  · rw [invert_false]
  · rw [invert_true, abs_neg]

/-- R124: the deadzone looks at the magnitude alone, which inversion keeps. -/
theorem deadzone_invert : deadzone c (invert v flag) = invert (deadzone c v) flag := by
  rcases lt_or_ge |v| c.deadzone with h | h
  · rw [deadzone_below h, deadzone_below (abs_invert.trans_lt h), invert_zero]
  · rw [deadzone_atLeast h, deadzone_atLeast (h.trans_eq abs_invert.symm)]

/-- R124: neither the deadzone nor the inversion takes a mapped value farther from 0. -/
theorem abs_shape_le : |shape c raw flag| ≤ |mapRaw c raw| := abs_invert.trans_le abs_deadzone_le

/-! ### The operations -/

theorem exec_deadzone (v : Rat) (s : State) : exec (.deadzone v) s = .next (s.setRet (some (.number (deadzone s.cfg v)))) := rfl

theorem exec_invert (v : Rat) (flag : Bool) (s : State) : exec (.invert v flag) s = .next (s.setRet (some (.number (invert v flag)))) :=
  rfl

/-- R124, R9: with a well-formed configuration the shaped value is the returned value, and nothing else of the state changes. -/
theorem exec_shape (hc : s.cfg.inMin < s.cfg.inMax) (raw : Rat) (flag : Bool) :
    exec (.shape raw flag) s = .next (s.setRet (some (.number (shape s.cfg raw flag)))) :=
  whenConfigured_wf (decide_eq_true hc)

/-- Settles O17: deadzone and inversion commute, and the magnitude of the shaped value is at most the mapped value's. -/
theorem shapeResult : Obligations.ShapeResult := by
  refine fun raw flag s hc => ⟨shape s.cfg raw flag, exec_shape hc raw flag, rfl, deadzone_invert.symm, fun hmin hmax => ?_⟩
  exact abs_le.mp (abs_shape_le.trans (abs_mapRaw_le hc hmin hmax))

/-- Settles O15: no magnitude is below a threshold of at most 0. -/
theorem deadzoneResult : Obligations.DeadzoneResult := by
  intro v s
  have hatLeast (h : s.cfg.deadzone ≤ |v|) : exec (.deadzone v) s = .next (s.setRet (some (.number v))) := by
    rw [exec_deadzone, deadzone_atLeast h]
  refine ⟨fun h => ?_, hatLeast, fun h => hatLeast (h.trans (abs_nonneg v))⟩
  rw [exec_deadzone, deadzone_below h, State.setRet]

/-- Settles O16: the flag decides between the negation and the value itself. -/
theorem invertResult : Obligations.InvertResult :=
  fun v s => ⟨exec_invert v true s, exec_invert v false s⟩

end Sys2Proof.Machine
end

section
/-! SUPPORT. The Drive Mixer (spec 44_drive_mixer.md): each side is the throttle times a factor that, for steering inputs in
[-100, 100], lies in [0, 1], and one side is the mirror image of the other. -/

namespace Sys2Proof.Machine

variable {t st v lo hi : Rat}

/-! ### The two sides before the clamp -/

theorem mixLeft_of_neg (h : st < 0) : mixLeft t st = t * (1 - |st| / 100) := if_pos h

theorem mixLeft_of_nonneg (h : 0 ≤ st) : mixLeft t st = t := if_neg h.not_gt

theorem mixRight_of_pos (h : 0 < st) : mixRight t st = t * (1 - st / 100) := if_pos h

theorem mixRight_of_nonpos (h : st ≤ 0) : mixRight t st = t := if_neg h.not_gt

/-- R130: a turn to the left slows the left side as the opposite turn slows the right one. -/
theorem mixLeft_eq_mixRight_neg : mixLeft t st = mixRight t (-st) := by
  rcases lt_or_ge st 0 with h | h
  · rw [mixLeft_of_neg h, mixRight_of_pos (neg_pos.mpr h), abs_of_neg h]
  · rw [mixLeft_of_nonneg h, mixRight_of_nonpos (neg_nonpos.mpr h)]

/-- R132: full steering zeroes the side it turns to. -/
theorem mixRight_fullRight : mixRight t 100 = 0 := by
  rw [mixRight_of_pos (by norm_num), div_self (by norm_num), sub_self, mul_zero]

theorem mixLeft_fullLeft : mixLeft t (-100) = 0 := by
  rw [mixLeft_eq_mixRight_neg, neg_neg, mixRight_fullRight]

/-! ### The slowing factor -/

theorem mixRight_eq_throttle_mul (h : st ≤ 100) : ∃ k ∈ Set.Icc (0 : Rat) 1, mixRight t st = t * k := by
  rcases le_or_gt st 0 with hst | hst
  · exact ⟨1, ⟨zero_le_one, le_rfl⟩, (mixRight_of_nonpos hst).trans (mul_one t).symm⟩
  · have hle : st / 100 ≤ 1 := (div_le_one (by norm_num)).mpr h
    have hnonneg : 0 ≤ st / 100 := div_nonneg hst.le (by norm_num)
    exact ⟨1 - st / 100, ⟨sub_nonneg.mpr hle, sub_le_self 1 hnonneg⟩, mixRight_of_pos hst⟩

theorem mixLeft_eq_throttle_mul (h : -100 ≤ st) : ∃ k ∈ Set.Icc (0 : Rat) 1, mixLeft t st = t * k := by
  rw [mixLeft_eq_mixRight_neg]
  exact mixRight_eq_throttle_mul (neg_le.mp h)

/-- R132: both sides have the throttle's sign or are 0. -/
theorem mixLeft_mul_mixRight_nonneg (hlo : -100 ≤ st) (hhi : st ≤ 100) : 0 ≤ mixLeft t st * mixRight t st := by
  obtain ⟨k, ⟨hk, -⟩, hl⟩ := mixLeft_eq_throttle_mul (t := t) hlo
  obtain ⟨k', ⟨hk', -⟩, hr⟩ := mixRight_eq_throttle_mul (t := t) hhi
  rw [hl, hr, mul_mul_mul_comm]
  exact mul_nonneg (mul_self_nonneg t) (mul_nonneg hk hk')

/-! ### The clamp -/

theorem clamp_eq_self (hlo : lo ≤ v) (hhi : v ≤ hi) : clamp v lo hi = v := by
  rw [clamp, max_eq_left hlo, min_eq_left hhi]

/-- R131: a throttle in the range, slowed, stays in the range. -/
theorem clamp_throttle_mul {k : Rat} (ht : |t| ≤ 100) (hk : k ∈ Set.Icc (0 : Rat) 1) : clamp (t * k) (-100) 100 = t * k := by
  have h : |t * k| ≤ 100 := by
    rw [abs_mul, abs_of_nonneg hk.1]
    exact (mul_le_of_le_one_right (abs_nonneg t) hk.2).trans ht
  exact clamp_eq_self (abs_le.mp h).1 (abs_le.mp h).2

/-- R131: inside the range the clamp changes nothing. -/
theorem mix_eq_unclamped (ht : |t| ≤ 100) (hlo : -100 ≤ st) (hhi : st ≤ 100) : mix t st = (mixLeft t st, mixRight t st) := by
  obtain ⟨k, hk, hl⟩ := mixLeft_eq_throttle_mul (t := t) hlo
  obtain ⟨k', hk', hr⟩ := mixRight_eq_throttle_mul (t := t) hhi
  rw [mix, hl, hr, clamp_throttle_mul ht hk, clamp_throttle_mul ht hk']

/-! ### The operation -/

theorem exec_mix (t st : Rat) (s : State) :
    exec (.mix t st) s = .next (s.setRet (some (.speeds (mix t st).1 (mix t st).2))) := rfl

/-- Settles O20: both sides are the throttle times a factor in [0, 1], so they share its sign and its range. -/
theorem mixIsTheProportionalTurn : Obligations.MixIsTheProportionalTurn := by
  intro t st htlo hthi hlo hhi
  have ht : |t| ≤ 100 := abs_le.mpr ⟨htlo, hthi⟩
  refine ⟨?sameSign, ?noSteering, ?fullRight, ?fullLeft, mix_eq_unclamped ht hlo hhi⟩
  case sameSign =>
    rw [mix_eq_unclamped ht hlo hhi]
    exact mixLeft_mul_mixRight_nonneg hlo hhi
  case noSteering =>
    rw [mix_eq_unclamped ht (by norm_num) (by norm_num), mixLeft_of_nonneg le_rfl, mixRight_of_nonpos le_rfl]
  case fullRight =>
    rw [mix_eq_unclamped ht (by norm_num) le_rfl, mixLeft_of_nonneg (by norm_num), mixRight_fullRight]
  case fullLeft =>
    rw [mix_eq_unclamped ht le_rfl (by norm_num), mixLeft_fullLeft, mixRight_of_nonpos (by norm_num)]

/-- Settles O19: each side's branch is chosen by the sign of the steering. -/
theorem mixResult : Obligations.MixResult := by
  refine fun t st s => ⟨(mix t st).1, (mix t st).2, exec_mix t st s, fun h => ?right, fun h => ?left, fun h => ?straight⟩
  case right =>
    rw [mix, mixLeft_of_nonneg h.le, mixRight_of_pos h]
    exact ⟨rfl, rfl⟩
  case left =>
    rw [mix, mixLeft_of_neg h, mixRight_of_nonpos h.le]
    exact ⟨rfl, rfl⟩
  case straight =>
    rw [mix, mixLeft_of_nonneg h.ge, mixRight_of_nonpos h.le]
    exact ⟨rfl, rfl⟩

end Sys2Proof.Machine
end

section
/-! SUPPORT. The operations of the supervisor and a whole cycle where no fault strikes (spec 45_failsafe_supervisor.md R141 to R150):
what each leaves when it returns. -/

namespace Sys2Proof.Machine

open Safety

/-! ### Flows that returned -/

section
variable {α : Type} {x : Flow α} {ret : α → Option Value} {u : State}

/-- What holds wherever a flow returns holds where it returned. -/
theorem Flow.All.of_eq_ok {p : α → State → Prop} {f : State → Prop} {c : Prop} {a : α} {t : State} (hx : x.All p f c)
    (h : x = .ok a t) : p a t := by
  rw [h] at hx
  exact hx

theorem Flow.All.of_eq_fatal {p : α → State → Prop} {f : State → Prop} {c : Prop} {cause : FatalCause} {t : State} (hx : x.All p f c)
    (h : x = .fatal cause t) : f t := by
  rw [h] at hx
  exact hx

/-- An operation after which the core is live has returned: a fatal fault leaves it halted. -/
theorem Flow.outcome_eq_next_live (h : x.outcome ret = .next u) (hu : u.halted = false) :
    ∃ a t, x = .ok a t ∧ u = t.setRet (ret a) := by
  cases x with
  | ok a t =>
    cases h
    exact ⟨a, t, rfl, rfl⟩
  | fatal c t =>
    cases h
    cases hu
  | stop f => cases h

/-- An operation after which the core is halted has raised a fatal fault, unless the core was halted where it returned. -/
theorem Flow.outcome_eq_next_halted (h : x.outcome ret = .next u) (hu : u.halted = true)
    (hx : ∀ a t, x = .ok a t → t.halted = false) : ∃ c t, x = .fatal c t := by
  cases x with
  | ok a t =>
    cases h
    exact absurd ((hx a t rfl).symm.trans hu) Bool.false_ne_true
  | fatal c t => exact ⟨c, t, rfl⟩
  | stop f => cases h

end

/-! ### The decode attempt -/

section
variable {s t u : State} {r : Option ChannelSet}

theorem tryReadFrame_eq_ok (h : tryReadFrame s = .ok r t) : ∃ v, ReadsOnly s v ∧
    ((∃ p, r = some (unpack p) ∧ t = accept p v) ∨ (r = none ∧ ∃ c, c ≠ ResultCode.ok ∧ t = v.setLastResult c)) :=
  (tryReadFrame_cases s).of_eq_ok h

theorem tryReadFrame_ok_halted (h : tryReadFrame s = .ok r t) : t.halted = s.halted := by
  obtain ⟨v, hv, ⟨p, -, rfl⟩ | ⟨-, c, -, rfl⟩⟩ := tryReadFrame_eq_ok h <;> exact hv.halted

theorem tryReadFrame_ok_faultIn (h : tryReadFrame s = .ok r t) (hs : NoInternalFault s) : t.env.faultIn = none := by
  obtain ⟨v, hv, ⟨p, -, rfl⟩ | ⟨-, c, -, rfl⟩⟩ := tryReadFrame_eq_ok h <;> exact hv.faultIn hs

/-- R98: the ChannelSet an attempt returns is the one it wrote to `CH`. -/
theorem tryReadFrame_ok_ch (h : tryReadFrame s = .ok r t) : ∀ ch, r = some ch → t.ch = some ch := by
  obtain ⟨v, -, ⟨p, rfl, rfl⟩ | ⟨rfl, -⟩⟩ := tryReadFrame_eq_ok h
  · exact fun _ h => h
  · exact fun _ h => by cases h

theorem exec_tryReadFrame_live (hs : s.halted = false) :
    exec .tryReadFrame s = (tryReadFrame s).outcome fun r => some (.frame r) := whenLive_live hs

/-- An attempt after which the core is live. -/
theorem exec_tryReadFrame_eq_next_live (hs : s.halted = false) (h : exec .tryReadFrame s = .next u) (hu : u.halted = false)
    (hr : u.ret = some (.frame r)) : ∃ t, tryReadFrame s = .ok r t ∧ u = t.setRet (some (.frame r)) := by
  rw [exec_tryReadFrame_live hs] at h
  obtain ⟨r', t, htry, rfl⟩ := Flow.outcome_eq_next_live h hu
  cases hr
  exact ⟨t, htry, rfl⟩

end

/-! ### The failsafe check -/

section
variable {tC lastValid : Time} {timeout : Nat}

theorem checkEvents_late (h : tC - lastValid > (timeout : Int)) : checkEvents tC lastValid timeout = allStopEvents := if_pos h

theorem checkEvents_inTime (h : tC - lastValid ≤ (timeout : Int)) : checkEvents tC lastValid timeout = [] := if_neg h.not_gt

theorem checkMode_late (h : tC - lastValid > (timeout : Int)) : checkMode tC lastValid timeout = .failsafe := if_pos h

theorem checkMode_inTime (h : tC - lastValid ≤ (timeout : Int)) : checkMode tC lastValid timeout = .running := if_neg h.not_gt

end

section
variable {s t v : State} {tC : Time}

theorem injectionPoint_eq_ok (h : injectionPoint s = .ok () t) : ∃ e, t = s.setEnv e := by
  rcases injectionPoint_cases s with ⟨e, he⟩ | ⟨e, he⟩ <;> rw [he] at h <;> cases h
  exact ⟨e, rfl⟩

theorem commandPair_eq_ok {l r : MotorCommand} (h : commandPair l r s = .ok () t) :
    ∃ e, t = ((s.setEnv e).emit (.motor .left l.speed l.dir)).emit (.motor .right r.speed r.dir) := by
  rcases commandPair_cases l r s with ⟨e, he⟩ | ⟨e, he⟩ <;> rw [he] at h <;> cases h
  exact ⟨e, rfl⟩

/-- R145: what a check at `tC` leaves when it returns. -/
theorem checkAt_eq_ok (h : checkAt tC s = .ok () t) :
    ∃ e, t = { s with out := s.out ++ checkEvents tC s.lastValid s.cfg.failsafeTimeout
                      mode := checkMode tC s.lastValid s.cfg.failsafeTimeout, env := e } := by
  unfold checkAt at h
  split at h
  · next hstale =>
    have hlate : tC - s.lastValid > (s.cfg.failsafeTimeout : Int) := of_decide_eq_true hstale
    obtain ⟨_, w, hpair, h⟩ := Flow.bind_eq_ok h
    obtain ⟨e, rfl⟩ := commandPair_eq_ok hpair
    obtain ⟨_, w, hpoint, h⟩ := Flow.bind_eq_ok h
    obtain ⟨e', rfl⟩ := injectionPoint_eq_ok hpoint
    cases h
    refine ⟨e', ?_⟩
    rw [checkEvents_late hlate, checkMode_late hlate]
    simp [State.setMode, State.setEnv, State.emit, modeOf, stopCommand, allStopEvents]
  · next hfresh =>
    have hintime : tC - s.lastValid ≤ (s.cfg.failsafeTimeout : Int) := not_lt.mp fun h => hfresh (decide_eq_true h)
    cases h
    refine ⟨s.env, ?_⟩
    rw [checkEvents_inTime hintime, checkMode_inTime hintime, List.append_nil]
    rfl

/-- R145: what a failsafe check leaves when it returns. -/
theorem failsafeCheck_eq_ok (h : failsafeCheck v = .ok () t) :
    ∃ e, t = { v with out := v.out ++ checkEvents (nowTime v) v.lastValid v.cfg.failsafeTimeout
                      mode := checkMode (nowTime v) v.lastValid v.cfg.failsafeTimeout, phase := .check, env := e } := by
  obtain ⟨_, w, hpoint, h⟩ := Flow.bind_eq_ok h
  obtain ⟨e, rfl⟩ := injectionPoint_eq_ok hpoint
  exact checkAt_eq_ok h

end

/-- R145: a check where the host injects nothing leaves what the end of a cycle without a frame leaves, but for the phase. -/
theorem exec_failsafeCheck {s : State} (hs : s.halted = false) (hf : NoInternalFault s) :
    exec .failsafeCheck s = .next ((cycleEnd none s).setPhase .check) := by
  obtain ⟨t, hcheck, -, hend⟩ := failsafeCheck_undisturbed s hf
  obtain ⟨e, ht⟩ := failsafeCheck_eq_ok hcheck
  have hphase : t.phase = .check := congrArg State.phase ht
  have hret : t.setRet none = ((t.setPhase .between).setRet none).setPhase t.phase := rfl
  rw [exec, execFailsafeCheck, whenLive_live hs, hcheck, Flow.outcome_ok, hret, hend, hphase]

/-- Settles O31: the elapsed time decides between the all-stop pair and no event. -/
theorem failsafeCheckResult : Obligations.FailsafeCheckResult := by
  intro s tC more hs hf htimes
  rw [exec_failsafeCheck hs hf, cycleEnd, nowTime_cons htimes, afterNow_cons htimes]
  refine ⟨fun hlate => ?_, fun hintime => ?_⟩
  · rw [checkEvents_late hlate, checkMode_late hlate]
    rfl
  · rw [checkEvents_inTime hintime, checkMode_inTime hintime, List.append_nil]
    rfl

/-! ### The command of a ChannelSet -/

section
variable {s : State} {ch : ChannelSet} {l r : MotorCommand}

/-- R166: an injection point at which no fault strikes brings the one to come nearer. -/
theorem injectionPoint_notNow (h : s.env.faultIn ≠ some 0) :
    injectionPoint s = .ok () (s.setEnv { s.env with faultIn := s.env.faultIn.map (· - 1) }) := by
  unfold injectionPoint
  split
  · next hnone =>
    rw [hnone, Option.map_none, ← hnone]
    rfl
  · next hnow => exact absurd hnow h
  · next k hlater =>
    rw [hlater]
    rfl

theorem commandPair_notNow (h : s.env.faultIn ≠ some 0) :
    commandPair l r s = .ok ()
      (((s.setEnv { s.env with faultIn := s.env.faultIn.map (· - 1) }).emit (.motor .left l.speed l.dir)).emit
        (.motor .right r.speed r.dir)) := by
  rw [commandPair, injectionPoint_notNow (by exact h)]
  rfl

/-- R142: the lane a configuration index selects. -/
theorem channelOperand_eq_getD (ch : ChannelSet) (index : BitVec 4) :
    channelOperand ch index = ((ch.toList.getD index.toNat 0#11).toNat : Rat) := by
  simp [channelOperand, index.isLt]

theorem exec_commandFromChannels (hs : s.halted = false) (hc : s.cfg.inMin < s.cfg.inMax) :
    exec (.commandFromChannels ch) s = (commandFromChannels ch s).outcome fun _ => none := by
  rw [exec, execCommandFromChannels, whenLive_live hs, whenConfigured_wf (decide_eq_true hc)]

end

/-- Settles O30: the two lanes are the operands of the mixed speeds, and the pair is emitted whole. -/
theorem commandFromChannelsResult : Obligations.CommandFromChannelsResult := by
  rintro ch s hs hc hf th st rfl rfl
  rw [exec_commandFromChannels hs hc, commandFromChannels, commandPair_notNow (by exact hf), Flow.outcome_ok, ← channelOperand_eq_getD,
    ← channelOperand_eq_getD]
  simp [State.setRet, State.emit, State.setEnv, State.setPhase, mixedSpeeds, normalized]

/-! ### Shutdown -/

/-- Settles O32: shutdown in a live core. -/
theorem shutdownResult : Obligations.ShutdownResult := by
  intro s hs
  rw [exec, execShutdown, whenLive_live hs, shutdown_eq_shutdownEnd]
  rfl

/-! ### A cycle where no fault strikes -/

section
variable {s : State}

theorem exec_cycle (hs : s.halted = false) (hc : s.cfg.inMin < s.cfg.inMax) :
    exec .cycle s = (cycle s).outcome fun _ => none := by
  rw [exec, execCycle, whenLive_live hs, whenConfigured_wf (decide_eq_true hc)]

/-- What an attempt returned is no part of the state a cycle ends in (R33). -/
theorem cycleEnd_setRet (r : Option ChannelSet) (v : Option Value) (t : State) : cycleEnd r (t.setRet v) = cycleEnd r t := by
  cases r <;> rfl

/-- R140: with no termination to come, the sample changes nothing. -/
theorem exec_run_of_termIn_none (hs : s.halted = false) (hc : s.cfg.inMin < s.cfg.inMax) (h : s.env.termIn = none) :
    exec .run s = exec .cycle s := by
  have hsample : afterTermSample s = s := by
    rw [afterTermSample, h, Option.map_none, ← h]
    rfl
  have hturn : runTurn s = (cycle s).outcome fun _ => none := by
    rw [runTurn, termRequested, h, hsample]
    rfl
  rw [exec_cycle hs hc, exec, execRun, whenLive_live hs, whenConfigured_wf (decide_eq_true hc), hturn]

end

/-- Settles O35: the attempt returned, and what follows it ends as R150 says. -/
theorem cycleEvents : Obligations.CycleEvents := by
  intro s u r hs hc hf hread hu hr
  obtain ⟨t, htry, rfl⟩ := exec_tryReadFrame_eq_next_live hs hread hu hr
  obtain ⟨w, hrest, hend⟩ := afterDecode_undisturbed r t (tryReadFrame_ok_faultIn htry hf) (tryReadFrame_ok_ch htry)
  rw [exec_cycle hs hc, cycle, injectionPoint_none hf, Flow.bind_ok, htry, Flow.bind_ok, hrest, Flow.outcome_ok, hend,
    cycleEnd_setRet]

/-- R141: under full delivery the attempt returns, whatever the stream holds. -/
theorem exec_tryReadFrame_returns {s : State} (hs : s.halted = false) (hf : NoInternalFault s) (hr : DeliversInFull s) :
    ∃ (u : State) (r : Option ChannelSet), exec .tryReadFrame s = .next u ∧ u.halted = false ∧ u.ret = some (.frame r) := by
  obtain ⟨more, hr⟩ := hr
  obtain ⟨a, p, c, rx, reads, hfetch, -⟩ := fetch_consumes hf hr
  have hhalted : (a.record (s.atRead p rx reads)).halted = false := by
    rcases a with code | ⟨_ | _ | _ | _ | _⟩ <;> exact hs
  exact ⟨_, a.result, exec_tryReadFrame_of_fetch hs (noInternalFault_atRead hf) hfetch, hhalted, rfl⟩

/-- Settles O36: the attempt returns, and then the cycle's table applies. -/
theorem cycleCompletes : Obligations.CycleCompletes := by
  intro s hs hc hdeliver hf
  obtain ⟨u, r, hread, hu, hr⟩ := exec_tryReadFrame_returns hs hf hdeliver
  have hcycle := cycleEvents s u r hs hc hf hread hu hr
  exact ⟨u, r, hread, hu, hr, hcycle, fun hterm => (exec_run_of_termIn_none hs hc hterm).trans hcycle⟩

end Sys2Proof.Machine
end

section
/-! SUPPORT. A cycle that an internal fault strikes (spec 60_exceptions.md R165, R166): its injection points are those of its attempt, at
which the core has only read, and those of what follows the attempt. -/

namespace Sys2Proof.Machine

open Safety

section
variable {s t : State} {r : Option ChannelSet}

/-- R165: shutdown after reads alone leaves the core as it was, but for the environment. -/
theorem ReadsOnly.shutdownEnd_setEnv (h : ReadsOnly s t) (e : Env) :
    shutdownEnd (t.setEnv e) = shutdownEnd { s with env := e } := by
  obtain ⟨_, p, rfl, -⟩ := h
  rfl

/-- A fault at one of the points of a cycle. -/
theorem exec_cycle_strikes {pts : List State} {x : Flow Unit} (hs : s.halted = false) (hc : s.cfg.inMin < s.cfg.inMax)
    (h : Points cycle s pts x) {k : Nat} {p : State} (hp : pts[k]? = some p) :
    exec .cycle (withFault k s) = .next (shutdownEnd p) := by
  rw [exec_cycle (s := withFault k s) hs hc, h.strikes k p hp, Flow.outcome_fatal, shutdown_eq_shutdownEnd]

/-- R165: a fault where the core has only read leaves it as it was, but for the environment. -/
theorem exec_cycle_strikes_reads {pts : List State} {x : Flow Unit} (hs : s.halted = false) (hc : s.cfg.inMin < s.cfg.inMax)
    (h : Points cycle s pts x) {k : Nat} {p : State} (hp : pts[k]? = some p) (hreads : ReadsOnly s p) :
    ∃ e, exec .cycle (withFault k s) = .next (shutdownEnd { s with env := e }) :=
  ⟨p.env, (exec_cycle_strikes hs hc h hp).trans (congrArg _ (hreads.shutdownEnd_setEnv p.env))⟩

/-- A fault to come behind the points of a cycle. -/
theorem exec_cycle_passes {pts : List State} {x : Flow Unit} (hs : s.halted = false) (hc : s.cfg.inMin < s.cfg.inMax)
    (h : Points cycle s pts x) (k : Nat) :
    exec .cycle (withFault (pts.length + k) s) = (x.withFault k).outcome fun _ => none := by
  rw [exec_cycle (s := withFault _ s) hs hc, h.passes]

/-- The points of a cycle whose attempt is fatal: at all of them, and at its end, the core has only read. -/
theorem cycle_points_fatal (hf : NoInternalFault s) {c : FatalCause} (h : tryReadFrame s = .fatal c t) :
    ∃ pts, Points cycle s pts (.fatal c t) ∧ (∀ p ∈ pts, ReadsOnly s p) ∧ ReadsOnly s t := by
  obtain ⟨pts, hpts, hreads⟩ := tryReadFrame_points hf
  rw [h] at hpts
  exact ⟨s :: pts, (Points.injection hf).bind hpts.bind_fatal, List.forall_mem_cons.mpr ⟨.refl s, hreads⟩,
    (tryReadFrame_cases s).of_eq_fatal h⟩

/-- R165: where the attempt itself meets a fatal read, no internal fault changes the end. -/
theorem exec_cycle_fatal_withFault (hs : s.halted = false) (hc : s.cfg.inMin < s.cfg.inMax) (hf : NoInternalFault s)
    {c : FatalCause} (h : tryReadFrame s = .fatal c t) (k : Nat) :
    ∃ e, exec .cycle (withFault k s) = .next (shutdownEnd { s with env := e }) := by
  obtain ⟨pts, hpts, hreads, hend⟩ := cycle_points_fatal hf h
  rcases Nat.lt_or_ge k pts.length with hk | hk
  · exact exec_cycle_strikes_reads hs hc hpts (List.getElem?_eq_getElem hk) (hreads _ (List.getElem_mem hk))
  · obtain ⟨j, rfl⟩ := Nat.exists_eq_add_of_le hk
    refine ⟨(withFault j t).env, ?_⟩
    rw [exec_cycle_passes hs hc hpts, Flow.withFault, Flow.outcome_fatal, shutdown_eq_shutdownEnd, ← hend.shutdownEnd_setEnv]
    rfl

/-- The points of a cycle whose attempt returns: those of the attempt, then those `pointStates` lists. -/
theorem cycle_points_returned (hf : NoInternalFault s) (h : tryReadFrame s = .ok r t) :
    ∃ pts pts' w, Points cycle s (pts ++ pts') (.ok () w) ∧ (∀ p ∈ pts, ReadsOnly s p) ∧
      pts'.map shutdownEnd = (pointStates r t).map shutdownEnd ∧ w.setRet none = cycleEnd r t := by
  obtain ⟨pts, hpts, hreads⟩ := tryReadFrame_points hf
  obtain ⟨pts', w, hpts', hstates, hend⟩ := afterDecode_points r (tryReadFrame_ok_faultIn h hf) (tryReadFrame_ok_ch h)
  rw [h] at hpts
  exact ⟨s :: pts, pts', w, (Points.injection hf).bind (hpts.bind hpts'), List.forall_mem_cons.mpr ⟨.refl s, hreads⟩, hstates, hend⟩

/-- What an attempt returned is no part of the state shutdown leaves at a point (R33). -/
theorem checkPoints_setRet (v : Option Value) (t : State) :
    (checkPoints (t.setRet v)).map shutdownEnd = (checkPoints t).map shutdownEnd := by
  simp only [checkPoints, apply_ite (List.map shutdownEnd)]
  rfl

theorem pointStates_setRet (r : Option ChannelSet) (v : Option Value) (t : State) :
    (pointStates r (t.setRet v)).map shutdownEnd = (pointStates r t).map shutdownEnd := by
  cases r with
  | none => exact congrArg (shutdownEnd t :: ·) (checkPoints_setRet v t)
  | some ch =>
    simp only [pointStates, List.map_append]
    exact congrArg _ (checkPoints_setRet v { afterNow t with lastValid := nowTime t, out := t.out ++ mixedEvents t.cfg ch })

end

/-- Settles O41: the points of the cycle are those of its attempt, which has only read, and then those of what follows it. -/
theorem internalFaultIsPrecise : Obligations.InternalFaultIsPrecise := by
  intro s u hs hc hf hread
  refine ⟨fun hu k => ?_, fun r hu hr => ?_⟩
  · rw [exec_tryReadFrame_live hs] at hread
    obtain ⟨c, t, htry⟩ := Flow.outcome_eq_next_halted hread hu fun _ _ h => (tryReadFrame_ok_halted h).trans hs
    exact exec_cycle_fatal_withFault hs hc hf htry k
  · obtain ⟨t, htry, rfl⟩ := exec_tryReadFrame_eq_next_live hs hread hu hr
    obtain ⟨pts, pts', w, hpts, hreads, hstates, hend⟩ := cycle_points_returned hf htry
    rw [← pointStates_setRet r (some (.frame r))] at hstates
    have hlength : pts'.length = (pointStates r (t.setRet (some (.frame r)))).length := by
      simpa only [List.length_map] using congrArg List.length hstates
    refine ⟨pts.length, fun k hk => ?_, fun k p hp => ?_, fun k => ?_⟩
    · have hp := (List.getElem?_append_left (l₂ := pts') hk).trans (List.getElem?_eq_getElem hk)
      exact exec_cycle_strikes_reads hs hc hpts hp (hreads _ (List.getElem_mem hk))
    · obtain ⟨q, hq, hqp⟩ : ∃ q, pts'[k]? = some q ∧ shutdownEnd q = shutdownEnd p := by
        have hk := congrArg (·[k]?) hstates
        simpa only [List.getElem?_map, hp, Option.map_some, Option.map_eq_some_iff] using hk
      rw [← hqp]
      exact exec_cycle_strikes hs hc hpts (by rw [List.getElem?_append_right (Nat.le_add_right _ _), Nat.add_sub_cancel_left, hq])
    · rw [← hlength, ← List.length_append, exec_cycle_passes hs hc hpts, cycleEnd_setRet, ← hend]
      rfl

end Sys2Proof.Machine
end

section
/-! SUPPORT. A lost link (spec 45_failsafe_supervisor.md R147, R151): while no cycle validates a frame the failsafe timer runs from one
origin, and a stop once emitted is held. -/

namespace Sys2Proof.Machine

open Safety

/-! ### A cycle that validates no frame -/

/-- R150: what a cycle without a validated frame does to the link state, the history and the mode. -/
structure CycleWithoutFrame (s t : State) : Prop where
  lastValid : t.lastValid = s.lastValid
  cfg : t.cfg = s.cfg
  out : t.out = s.out ++ checkEvents (nowTime s) s.lastValid s.cfg.failsafeTimeout
  mode : t.mode = checkMode (nowTime s) s.lastValid s.cfg.failsafeTimeout

section
variable {s t u : State}

theorem ReadsOnly.cycleWithoutFrame (h : ReadsOnly s u) (hc : CycleWithoutFrame u t) : CycleWithoutFrame s t where
  lastValid := hc.lastValid.trans h.lastValid
  cfg := hc.cfg.trans h.cfg
  out := by rw [hc.out, h.out, h.nowTime, h.lastValid, h.cfg]
  mode := by rw [hc.mode, h.nowTime, h.lastValid, h.cfg]

theorem CycleWithoutFrame.of_setLastResult {c : ResultCode} (h : CycleWithoutFrame (u.setLastResult c) t) : CycleWithoutFrame u t :=
  { h with }

theorem nowTime_afterTermSample (s : State) : nowTime (afterTermSample s) = nowTime s := by
  simp only [nowTime, Env.nextTime, afterTermSample, State.setEnv]
  cases s.env.times <;> rfl

theorem CycleWithoutFrame.of_afterTermSample (h : CycleWithoutFrame (afterTermSample s) t) : CycleWithoutFrame s t where
  lastValid := h.lastValid
  cfg := h.cfg
  out := by rw [h.out, nowTime_afterTermSample]; rfl
  mode := by rw [h.mode, nowTime_afterTermSample]; rfl

/-- Without a frame, only the failsafe check is behind the attempt. -/
theorem afterDecode_none (u : State) : afterDecode none u = (injectionPoint u).bind fun _ s => (failsafeCheck s).bind fun _ s =>
    (injectionPoint s).bind fun _ s => .ok () (s.setPhase .between) := rfl

theorem afterDecode_none_eq_ok (h : afterDecode none u = .ok () t) : CycleWithoutFrame u t := by
  rw [afterDecode_none] at h
  obtain ⟨_, v, hfirst, h⟩ := Flow.bind_eq_ok h
  have hreads : ReadsOnly u v := (injectionPoint_readsOnly u).of_eq_ok hfirst
  obtain ⟨_, w, hcheck, h⟩ := Flow.bind_eq_ok h
  obtain ⟨e, rfl⟩ := failsafeCheck_eq_ok hcheck
  obtain ⟨_, w, hlast, h⟩ := Flow.bind_eq_ok h
  obtain ⟨e', rfl⟩ := injectionPoint_eq_ok hlast
  cases h
  exact hreads.cycleWithoutFrame ⟨rfl, rfl, rfl, rfl⟩

/-- Nothing behind the accept step writes `LAST_RESULT`. -/
theorem afterDecode_accept_eq_ok {r : Option ChannelSet} {p : Payload} (h : afterDecode r (accept p u) = .ok () t) :
    t.lastResult = some .ok :=
  ((afterDecode_all (fun v => v.lastResult = some .ok) r (accept p u) rfl (fun _ => Option.some_ne_none _) (fun _ _ h => h)
    (fun _ _ h => h) (fun _ _ _ h => h) (fun _ _ h => h) fun _ _ _ _ _ h => h).of_eq_ok h).1

/-- R28, R98: a cycle that leaves another result than `OK` has validated no frame. -/
theorem cycle_eq_ok (h : cycle s = .ok () t) (hr : t.lastResult ≠ some .ok) : CycleWithoutFrame s t := by
  obtain ⟨_, u, hpoint, h⟩ := Flow.bind_eq_ok h
  have hstart : ReadsOnly s u := (injectionPoint_readsOnly s).of_eq_ok hpoint
  obtain ⟨r, w, hread, h⟩ := Flow.bind_eq_ok h
  obtain ⟨v, hv, ⟨p, -, rfl⟩ | ⟨rfl, c, -, rfl⟩⟩ := tryReadFrame_eq_ok hread
  · exact absurd (afterDecode_accept_eq_ok h) hr
  · exact (hstart.trans hv).cycleWithoutFrame (afterDecode_none_eq_ok h).of_setLastResult

theorem step_without_frame (h : step s = .next t) (ht : t.halted = false) (hr : t.lastResult ≠ some .ok) :
    CycleWithoutFrame s t := by
  obtain ⟨-, h⟩ := whenLive_eq_next h
  obtain ⟨-, h⟩ := whenConfigured_eq_next h
  unfold runTurn at h
  split at h
  · cases h
    cases ht
  · obtain ⟨_, w, hcycle, rfl⟩ := Flow.outcome_eq_next_live h ht
    have hend : CycleWithoutFrame (afterTermSample s) (w.setRet none) := { cycle_eq_ok hcycle hr with }
    exact hend.of_afterTermSample

end

/-! ### A lost link -/

section
variable {out : List Event} {tC lastValid : Time} {timeout : Nat}

theorem heldStopped_append_allStop (out : List Event) : HeldStopped (out ++ allStopEvents) := by
  simp [HeldStopped, allStopEvents]

/-- R147: a check stops the motors again or leaves them alone. -/
theorem heldStopped_append_checkEvents (h : HeldStopped out) : HeldStopped (out ++ checkEvents tC lastValid timeout) := by
  unfold checkEvents
  split
  · exact heldStopped_append_allStop out
  · rwa [List.append_nil]

end

section
variable {n : Nat} {run : Nat → State} (hrun : ∀ k < n, CycleWithoutFrame (run k) (run (k + 1)))
include hrun

/-- R25: the failsafe timer keeps its origin and its timeout. -/
theorem timer_along_run {k : Nat} (hk : k ≤ n) : (run k).lastValid = (run 0).lastValid ∧ (run k).cfg = (run 0).cfg := by
  induction k with
  | zero => exact ⟨rfl, rfl⟩
  | succ k ih =>
    obtain ⟨hvalid, hcfg⟩ := ih (Nat.le_of_succ_le hk)
    exact ⟨(hrun k hk).lastValid.trans hvalid, (hrun k hk).cfg.trans hcfg⟩

theorem heldStopped_along_run {k m : Nat} (hkm : k ≤ m) (hm : m ≤ n) (h : HeldStopped (run k).out) : HeldStopped (run m).out := by
  induction m, hkm using Nat.le_induction with
  | base => exact h
  | succ m _ ih =>
    rw [(hrun m hm).out]
    exact heldStopped_append_checkEvents (ih (Nat.le_of_succ_le hm))

end

/-- Settles O42: every cycle is one without a frame, so the timer stands still and the stop, once emitted, is held. -/
theorem linkLossBound : Obligations.LinkLossBound := by
  intro n run h k hk
  have hrun : ∀ k < n, CycleWithoutFrame (run k) (run (k + 1)) := fun k hk => by
    obtain ⟨hstep, hlive, hresult⟩ := h k hk
    exact step_without_frame hstep hlive hresult
  obtain ⟨hvalid, hcfg⟩ := timer_along_run hrun hk.le
  rw [← hvalid, ← hcfg]
  refine ⟨fun hlate => ?_, fun hintime => ?_⟩
  · have hafter := lt_sub_iff_add_lt'.mpr hlate
    have hout : (run (k + 1)).out = (run k).out ++ allStopEvents := by rw [(hrun k hk).out, checkEvents_late hafter]
    refine ⟨hout, (hrun k hk).mode.trans (checkMode_late hafter), fun m hkm hm => ?_⟩
    exact heldStopped_along_run hrun hkm hm (hout ▸ heldStopped_append_allStop _)
  · have hbefore := sub_le_iff_le_add'.mpr hintime
    refine ⟨?_, (hrun k hk).mode.trans (checkMode_inTime hbefore)⟩
    rw [(hrun k hk).out, checkEvents_inTime hbefore, List.append_nil]

end Sys2Proof.Machine
end

section
/-! SUPPORT. The lanes of the unpacker (spec 42_channel_unpacker.md R113): a bit of the payload is a bit of one channel, and a command
reads two channels. -/

namespace Sys2Proof.Machine

open Safety

/-! ### One bit of the payload -/

/-- R102: the bits of a flipped stream. -/
theorem getLsbD_flipBit {bs : List Byte} {k : Nat} (hk : k < 8 * bs.length) (n : Nat) :
    ((flipBit k bs).getD (n / 8) 0#8).getLsbD (n % 8) = ((bs.getD (n / 8) 0#8).getLsbD (n % 8) ^^ decide (n = k)) := by
  by_cases hbyte : n / 8 = k / 8
  · have hlt : k / 8 < bs.length := by omega
    have hmask : (1#8 <<< (k % 8)).getLsbD (n % 8) = decide (n = k) := by
      rw [← BitVec.twoPow_eq, BitVec.getLsbD_twoPow, decide_eq_true (Nat.mod_lt k (by decide)), Bool.true_and, decide_eq_decide]
      omega
    simp [flipBit, hbyte, hlt, hmask, -BitVec.getLsbD_shiftLeft]
  · have hne : n ≠ k := fun h => hbyte (h ▸ rfl)
    simp [flipBit, hne, Ne.symm hbyte]

/-- R66: payloads that differ in a stream bit have values that differ in that bit. -/
theorem testBit_payloadValue_flip {p q : Payload} {k : Nat} (hk : k < 176) (h : q.toList = flipBit k p.toList) (n : Nat) :
    (payloadValue q).testBit n = ((payloadValue p).testBit n ^^ decide (n = k)) := by
  rw [testBit_payloadValue, testBit_payloadValue, h, getLsbD_flipBit (by simpa using hk)]

theorem getLsbD_unpack_lane (p : Payload) (i : Fin 16) {j : Nat} (hj : j < 11) :
    (unpack p)[i].getLsbD j = (payloadValue p).testBit (11 * i + j) := by
  rw [← getLsbD_unpack p i.isLt hj]
  simp

/-- R113: channel `i` holds the stream bits from `11 * i` to `11 * i + 10`. -/
theorem unpack_lane_eq_iff {p q : Payload} {k : Nat} (hk : k < 176) (h : q.toList = flipBit k p.toList) (i : Fin 16) :
    (unpack q)[i] = (unpack p)[i] ↔ i.val ≠ k / 11 := by
  have hbit : ∀ j < 11, (unpack q)[i].getLsbD j = ((unpack p)[i].getLsbD j ^^ decide (11 * i.val + j = k)) := fun j hj => by
    rw [getLsbD_unpack_lane q i hj, getLsbD_unpack_lane p i hj, testBit_payloadValue_flip hk h]
  constructor
  · intro heq hi
    have hk' : 11 * i.val + k % 11 = k := by rw [hi, Nat.div_add_mod]
    have hflipped := hbit (k % 11) (Nat.mod_lt k (by decide))
    rw [heq, decide_eq_true hk'] at hflipped
    simp at hflipped
  · intro hi
    refine BitVec.eq_of_getLsbD_eq fun j hj => ?_
    have hother : 11 * i.val + j ≠ k := by omega
    rw [hbit j hj, decide_eq_false hother, Bool.xor_false]

/-! ### The two lanes of a command -/

/-- R142: the lanes `THROTTLE_CH` and `STEERING_CH` are all that the mixed speeds read of a ChannelSet. -/
theorem mixedSpeeds_congr {c : Cfg} {ch ch' : ChannelSet}
    (hthrottle : ch.toList.getD c.throttleCh.toNat 0#11 = ch'.toList.getD c.throttleCh.toNat 0#11)
    (hsteering : ch.toList.getD c.steeringCh.toNat 0#11 = ch'.toList.getD c.steeringCh.toNat 0#11) :
    mixedSpeeds c ch = mixedSpeeds c ch' := by
  simp only [mixedSpeeds, normalized, channelOperand_eq_getD, hthrottle, hsteering]

/-- Settles O12: a channel is eleven bits of the payload's number, and a command is its mixed speeds. -/
theorem lanesAreIndependent : Obligations.LanesAreIndependent := by
  refine ⟨fun p q k hk h i => unpack_lane_eq_iff hk h i, fun ch ch' s hthrottle hsteering => ?_⟩
  rw [exec, exec, execCommandFromChannels, execCommandFromChannels, commandFromChannels, commandFromChannels,
    mixedSpeeds_congr hthrottle hsteering]

end Sys2Proof.Machine
end

section
/-! SUPPORT. An internal fault between the two commands of a pair (spec 60_exceptions.md R165, R166; decision D25, log entry 7): the left
command stands, the right one does not come, and the cleanup follows. -/

namespace Sys2Proof.Machine

open Safety

section
variable {s : State} {l r : MotorCommand} {ch : ChannelSet} {tC : Time}

/-- R166: an injection point at which the fault strikes; once injected it does not come again. -/
theorem injectionPoint_now (h : s.env.faultIn = some 0) :
    injectionPoint s = .fatal .internal (s.setEnv { s.env with faultIn := none }) := by
  simp only [injectionPoint, h]

/-- R166: the point inside a pair lies behind its left command. -/
theorem commandPair_now (h : s.env.faultIn = some 0) :
    commandPair l r s = .fatal .internal ((s.setEnv { s.env with faultIn := none }).emit (.motor .left l.speed l.dir)) := by
  rw [commandPair, injectionPoint_now (by exact h)]
  rfl

theorem commandFromChannels_now (h : s.env.faultIn = some 0) :
    commandFromChannels ch s = .fatal .internal (((s.setPhase .command).setEnv { s.env with faultIn := none }).emit
      (.motor .left (split (mixedSpeeds s.cfg ch).1).speed (split (mixedSpeeds s.cfg ch).1).dir)) :=
  commandPair_now (s := s.setPhase .command) h

/-- R144, R145: a stale check starts with the all-stop pair. -/
theorem checkAt_late_now (hlate : tC - s.lastValid > (s.cfg.failsafeTimeout : Int)) (h : s.env.faultIn = some 0) :
    checkAt tC s = .fatal .internal ((s.setEnv { s.env with faultIn := none }).emit (.motor .left 0 .stop)) := by
  have hstale : stale tC s.lastValid s.cfg.failsafeTimeout = true := decide_eq_true hlate
  rw [checkAt, if_pos hstale, commandPair_now h]
  rfl

/-- D25: the time sample of a check has a point of its own, so the point inside its pair is the second. -/
theorem failsafeCheck_late_second (hlate : nowTime s - s.lastValid > (s.cfg.failsafeTimeout : Int)) (h : s.env.faultIn = some 1) :
    failsafeCheck s = .fatal .internal
      (((s.setPhase .check).setEnv { (afterNow s).env with faultIn := none }).emit (.motor .left 0 .stop)) := by
  have hsample : (afterNow (s.setPhase .check)).env.faultIn = some 1 := (afterNow_faultIn _).trans h
  have hpoint := injectionPoint_notNow (s := afterNow (s.setPhase .check)) (by simp [h])
  rw [hsample] at hpoint
  rw [failsafeCheck, hpoint, Flow.bind_ok, checkAt_late_now (by exact hlate) rfl]
  rfl

theorem exec_failsafeCheck_live (hs : s.halted = false) : exec .failsafeCheck s = (failsafeCheck s).outcome fun _ => none :=
  whenLive_live hs

end

/-- Settles O40: the fault leaves either operation at the point inside its pair, and shutdown takes the state of that point. -/
theorem internalFaultInsideThePair : Obligations.InternalFaultInsideThePair := by
  refine ⟨fun ch s hs hc hf => ?_, fun s hs hf hlate => ?_⟩
  · rw [exec_commandFromChannels hs hc, commandFromChannels_now hf, Flow.outcome_fatal, shutdown_eq_shutdownEnd]
    rfl
  · rw [exec_failsafeCheck_live hs, failsafeCheck_late_second hlate hf, Flow.outcome_fatal, shutdown_eq_shutdownEnd]
    rfl

end Sys2Proof.Machine
end

section
/-! SUPPORT. The reset sequence (spec 70_reset_and_hazards.md R180; decisions D10 to D14): it is gated by the configuration alone, so
it also runs in a halted core (log entry 11), and its one answer from the environment is a time sample. -/

namespace Sys2Proof.Machine

section
variable {s : State} {t : Time} {more : List Time}

/-- R180: the configuration is all that the reset asks for. -/
theorem exec_reset_wf (hc : s.cfg.inMin < s.cfg.inMax) : exec .reset s = .next (resetState s) :=
  whenConfigured_wf (decide_eq_true hc)

/-- R34, R180: the new run of a core whose queue holds the start sample. The rest of the environment stands on (log entry 26). -/
theorem resetState_cons (h : s.env.times = t :: more) :
    resetState s = { s with
      ch := none, lastResult := none, mode := .running, halted := false, out := [], phase := .between, lastValid := t, ret := none
      env := { s.env with times := more } } := by
  rw [resetState, nowTime_cons h, afterNow_cons h]
  rfl

end

/-- Settles O33: the configuration lets the reset through, and its start sample is the queue's first. -/
theorem resetResult : Obligations.ResetResult := by
  intro s t0 more hc htimes
  rw [exec_reset_wf hc, resetState_cons htimes]

end Sys2Proof.Machine
end

section
/-! SUPPORT. The codec (spec 30_encoding.md R60 to R69): on well-formed frame classes decoding undoes encoding, with whatever follows left
over, and what the decoder accepts is an encoding at the front of the stream. -/

namespace Sys2Proof.Machine

/-! ### Decoding what was encoded -/

/-- R97: the body of a frame whose checksum byte is wrong. -/
theorem classifyBody_rcBadCrc {p : Payload} {c : Byte} (h : c ≠ crc8 (coveredBytes p)) :
    classifyBody (p.toList ++ [c]) = .rcBadCrc p c := by
  rw [classifyBody, payloadOf_append, checksumOf_append, if_neg h.symm]

/-- R92: a whole header at the front of a frame, with more behind the frame. -/
theorem decode_sync_append (len ty : Byte) (tail rest : List Byte) :
    decode (syncByte :: len :: ty :: tail ++ rest) = decodeHeader len ty (tail ++ rest) := decode_sync len ty (tail ++ rest)

/-- R63, R65: behind the good header a body of 23 bytes is classified, and what follows is left over. -/
theorem decode_rcFrame (p : Payload) (c : Byte) (rest : List Byte) :
    decode (syncByte :: rcLength :: rcType :: (p.toList ++ [c]) ++ rest) = .instr (classifyBody (p.toList ++ [c])).instr rest := by
  rw [decode_sync_append, decodeHeader_body _ _ (by simp)]

/-- R62, R71: behind the header of an unknown frame the skip takes exactly the bytes the length byte counts. -/
theorem decode_unknownFrame {len ty : Byte} {skipped : List Byte} (hty : ty ≠ rcType) (hlen : skipped.length = skipCount len)
    (rest : List Byte) :
    decode (syncByte :: len :: ty :: skipped ++ rest) = .instr (.unknownType len ty skipped) rest := by
  rw [decode_sync_append, decodeHeader_unknown hty, List.take_left' hlen, List.drop_left' hlen]

/-- Settles O3: the conditions of a well-formed class are the branches the decoder takes on its encoding. -/
theorem decodeOfEncode : Obligations.DecodeOfEncode := by
  intro i e rest hwf he
  cases i with
  | notSync b =>
    cases he
    exact decode_notSync (bne_iff_ne.mp hwf) rest
  | unknownType len ty skipped =>
    cases he
    obtain ⟨hty, hlen⟩ := Bool.and_eq_true_iff.mp hwf
    exact decode_unknownFrame (bne_iff_ne.mp hty) (eq_of_beq hlen) rest
  | rcBadLength len =>
    cases he
    exact (decode_sync len rcType rest).trans (decodeHeader_badLength (bne_iff_ne.mp hwf) rest)
  | rcBadCrc p c =>
    cases he
    rw [decode_rcFrame, classifyBody_rcBadCrc (bne_iff_ne.mp hwf), FrameClass.instr]
  | rcChannels p =>
    cases he
    rw [decode_rcFrame, classifyBody_rcChannels, FrameClass.instr]
  | _ => cases he

/-- Settles O1: each word but the last is the encoding of its class with the rest of the stream behind it. -/
theorem sampleFramesDecode : Obligations.SampleFramesDecode := by
  refine ⟨?notSync, ?unknown, ?badLength, ?zeros, ?ones, ?badCrc, ?short⟩
  case notSync => exact decodeOfEncode (.notSync 0x00#8) [0x00#8] _ rfl rfl
  case unknown => exact decodeOfEncode (.unknownType 0x04#8 0x02#8 [0xAA#8, 0xBB#8, 0xCC#8]) _ [0xC8#8] rfl rfl
  case badLength => exact decodeOfEncode (.rcBadLength 0x19#8) _ [0xC8#8] rfl rfl
  case zeros =>
    exact decodeOfEncode (.rcChannels (Vector.replicate 22 0x00#8)) ([0xC8#8, 0x18#8, 0x16#8] ++ List.replicate 22 0x00#8 ++ [0xEF#8]) []
      rfl (by decide +kernel)
  case ones =>
    exact decodeOfEncode (.rcChannels (Vector.replicate 22 0xFF#8)) ([0xC8#8, 0x18#8, 0x16#8] ++ List.replicate 22 0xFF#8 ++ [0x8F#8]) []
      rfl (by decide +kernel)
  case badCrc =>
    exact decodeOfEncode (.rcBadCrc (Vector.replicate 22 0xFF#8) 0x8E#8)
      ([0xC8#8, 0x18#8, 0x16#8] ++ List.replicate 22 0xFF#8 ++ [0x8E#8]) [] (by decide +kernel) (by decide +kernel)
  case short => rfl

/-! ### Encoding what was decoded -/

/-- R61 to R65: an accepted answer encodes to the front of the stream, and is a whole frame unless a skip ran out of bytes. -/
def EncodesFront (bs : List Byte) (i : Instr) (rest : List Byte) : Prop :=
  (∃ e, encode i = some e ∧ bs = e ++ rest) ∧
  (i.wf = true ∨ rest = [] ∧ ∃ len ty skipped, i = .unknownType len ty skipped ∧ ty ≠ 0x16#8 ∧ skipped.length < len.toNat - 1)

theorem unknownType_encodesFront {len ty : Byte} (hty : ty ≠ rcType) (more : List Byte) :
    EncodesFront (syncByte :: len :: ty :: more) (.unknownType len ty (more.take (skipCount len))) (more.drop (skipCount len)) := by
  refine ⟨⟨_, rfl, by simp⟩, ?_⟩
  rcases Nat.lt_or_ge more.length (skipCount len) with hshort | hwhole
  · refine .inr ⟨List.drop_eq_nil_of_le hshort.le, len, ty, _, rfl, hty, ?_⟩
    rwa [List.take_of_length_le hshort.le]
  · exact .inl (Bool.and_eq_true_iff.mpr ⟨bne_iff_ne.mpr hty, beq_iff_eq.mpr (List.length_take_of_le hwhole)⟩)

theorem classifyBody_encodesFront {more : List Byte} (h : bodyCount ≤ more.length) :
    EncodesFront (syncByte :: rcLength :: rcType :: more) (classifyBody (more.take bodyCount)).instr (more.drop bodyCount) := by
  obtain ⟨henc, hwf⟩ := classifyBody_encode (more.take bodyCount) (List.length_take_of_le h)
  exact ⟨⟨_, henc, by simp⟩, .inl hwf⟩

theorem decodeHeader_encodesFront {len ty : Byte} {more rest : List Byte} {i : Instr}
    (h : decodeHeader len ty more = .instr i rest) : EncodesFront (syncByte :: len :: ty :: more) i rest := by
  unfold decodeHeader at h
  split at h
  · next hty =>
    cases h
    exact unknownType_encodesFront hty more
  next hty =>
  obtain rfl : ty = rcType := not_not.mp hty
  split at h
  · next hlen =>
    cases h
    exact ⟨⟨_, rfl, rfl⟩, .inl (bne_iff_ne.mpr hlen)⟩
  next hlen =>
  obtain rfl : len = rcLength := not_not.mp hlen
  split at h
  · cases h
  next hbody =>
  obtain ⟨rfl, rfl⟩ := Decoded.instr.inj h
  exact classifyBody_encodesFront (not_lt.mp hbody)

/-- Settles O4: stage by stage, in the order of the decoder. -/
theorem encodeOfDecode : Obligations.EncodeOfDecode := by
  intro bs rest i h
  match bs with
  | [] => cases h
  | b :: bs =>
    by_cases hsync : b = syncByte
    swap
    · rw [decode_notSync hsync] at h
      cases h
      exact ⟨⟨_, rfl, rfl⟩, .inl (bne_iff_ne.mpr hsync)⟩
    subst hsync
    match bs with
    | [] => cases h
    | [_] => cases h
    | len :: ty :: more =>
      rw [decode_sync] at h
      exact decodeHeader_encodesFront h

end Sys2Proof.Machine
end

section
/-! SUPPORT. What CRC-8 is for (spec 40_checksum.md R84): it is linear, no two bytes look up the same table entry, and so one wrong bit
is never lost. -/

namespace Sys2Proof.Machine

open Safety

/-- The loop is linear in its running value and its bytes together. -/
theorem crcFrom_xor {a b : List Byte} (h : a.length = b.length) (c d : Byte) :
    crcFrom (c ^^^ d) (List.zipWith (· ^^^ ·) a b) = crcFrom c a ^^^ crcFrom d b := by
  induction a generalizing b c d with
  | nil =>
    obtain rfl := List.length_eq_zero_iff.mp h.symm
    rfl
  | cons x a ih =>
    match b, h with
    | y :: b, h =>
      have hbyte : c ^^^ d ^^^ (x ^^^ y) = (c ^^^ x) ^^^ (d ^^^ y) := by ac_rfl
      rw [List.zipWith_cons_cons, crcFrom, hbyte, crcTable_xor, ih (Nat.succ.inj h), crcFrom, crcFrom]

/-- R82: the seed 0 is the sum of two seeds 0. -/
theorem crc8_xor {a b : List Byte} (h : a.length = b.length) :
    crc8 (List.zipWith (· ^^^ ·) a b) = crc8 a ^^^ crc8 b := crcFrom_xor h 0#8 0#8

theorem bit_ne_zero {k : Nat} (h : k < 8) : 1#8 <<< k ≠ 0#8 := by
  rw [← BitVec.twoPow_eq]
  intro hzero
  simpa [h] using congrArg (·.getLsbD k) hzero

/-- The byte with the wrong bit looks up another entry, and from there the running values stay apart. -/
theorem crcFrom_flipBit_ne {bs : List Byte} {k : Nat} (h : k < 8 * bs.length) (c : Byte) :
    crcFrom c (flipBit k bs) ≠ crcFrom c bs := by
  induction bs generalizing c k with
  | nil => cases h
  | cons b bs ih =>
    rcases Nat.lt_or_ge k 8 with hk | hk
    · rw [flipBit_cons_of_lt hk]
      intro heq
      have hbyte := crcTable_injective (crcFrom_injective bs _ _ heq)
      exact bit_ne_zero hk (by simpa using hbyte)
    · rw [flipBit_cons_of_ge hk]
      exact ih (by rw [List.length_cons] at h; omega) _

theorem crc8_flipBit_ne {bs : List Byte} {k : Nat} (h : k < 8 * bs.length) : crc8 (flipBit k bs) ≠ crc8 bs :=
  crcFrom_flipBit_ne h 0#8

/-- Settles O8: linearity byte by byte, and the running values apart from the flipped byte on. -/
theorem checksumLinearAndDetectsSingleBits : Obligations.ChecksumLinearAndDetectsSingleBits :=
  ⟨fun _ _ h => crc8_xor h, fun _ _ h => crc8_flipBit_ne h⟩

end Sys2Proof.Machine
end

section
/-! SUPPORT. The arithmetic of the mapper, the mixer and the configuration's check (spec 10_state.md R32; 43_channel_mapper.md R120;
44_drive_mixer.md R133; 00_scope.md R9). -/

namespace Sys2Proof.Machine

/-! ### The map -/

section
variable {c : Cfg} {s : State} {raw : Rat}

theorem clamp_of_le {v lo hi : Rat} (h : v ≤ lo) (hlohi : lo ≤ hi) : clamp v lo hi = lo := by
  rw [clamp, max_eq_right h, min_eq_left hlohi]

theorem clamp_of_ge {v lo hi : Rat} (h : hi ≤ v) : clamp v lo hi = hi := min_eq_right (h.trans (le_max_left v lo))

/-- R120: at and below the low end of the input range. -/
theorem mapRaw_of_le (hc : c.inMin < c.inMax) (h : raw ≤ c.inMin) : mapRaw c raw = c.outMin := by
  rw [mapRaw, clamp_of_le h hc.le, sub_self, zero_mul, zero_div, add_zero]

/-- R120: at and above the high end of the input range. -/
theorem mapRaw_of_ge (hc : c.inMin < c.inMax) (h : c.inMax ≤ raw) : mapRaw c raw = c.outMax := by
  rw [mapRaw, clamp_of_ge h, mul_div_cancel_left₀ _ (sub_pos.mpr hc).ne', add_sub_cancel]

theorem exec_map (hc : s.cfg.inMin < s.cfg.inMax) (raw : Rat) :
    exec (.map raw) s = .next (s.setRet (some (.number (mapRaw s.cfg raw)))) := whenConfigured_wf (decide_eq_true hc)

end

/-- Settles O13: the clamp sends an operand beyond an end to that end, and the map takes end to end. -/
theorem mapResult : Obligations.MapResult := by
  refine fun raw s hc => ⟨mapRaw s.cfg raw, exec_map hc raw, rfl, mapRaw_of_le hc, mapRaw_of_ge hc, fun hmin hmax => ?_⟩
  exact abs_le.mp (abs_mapRaw_le hc hmin hmax)

/-- Settles O14: the map keeps between the ends of the output range, and the mixer ends in a clamp. -/
theorem rangesHold : Obligations.RangesHold :=
  ⟨fun _ _ hc => mapRaw_mem_uIcc hc, mix_range⟩

/-! ### The split -/

section
variable {v : Rat}

theorem split_of_pos (h : 0 < v) : split v = ⟨v, .forward⟩ := if_pos h

theorem split_of_neg (h : v < 0) : split v = ⟨-v, .reverse⟩ := (if_neg h.not_gt).trans (if_pos h)

@[simp] theorem split_zero : split 0 = ⟨0, .stop⟩ := rfl

/-- R133: the speed is the magnitude. -/
theorem split_speed : (split v).speed = |v| := by
  rcases lt_trichotomy v 0 with h | rfl | h
  · rw [split_of_neg h, abs_of_neg h]
  · rw [split_zero, abs_zero]
  · rw [split_of_pos h, abs_of_pos h]

theorem exec_split (v : Rat) (s : State) : exec (.split v) s = .next (s.setRet (some (.command (split v)))) := rfl

end

/-- Settles O21: the sign decides the direction, and the speed is the magnitude. -/
theorem splitResult : Obligations.SplitResult := by
  refine fun v s => ⟨split v, exec_split v s, split_of_pos, split_of_neg, fun h => h ▸ split_zero, fun hlo hhi => ?_⟩
  rw [split_speed]
  exact ⟨abs_nonneg v, abs_le.mpr ⟨hlo, hhi⟩⟩

/-! ### The configuration's check -/

section
variable {s : State} {b : Bundle} {c : Cfg} {k : Host.Outcome State Fault Refusal}

theorem whenConfigured_illFormed (h : s.cfg.inMax ≤ s.cfg.inMin) : whenConfigured s k = .refused .illFormedConfig := by
  rw [whenConfigured, cfgWf, decide_eq_false h.not_gt]
  rfl

theorem bundleWf_iff : bundleWf b = true ↔ b.throttleCh < 16 ∧ b.steeringCh < 16 ∧ b.inMin < b.inMax := by
  simp only [bundleWf, Bool.and_eq_true, decide_eq_true_eq, and_assoc]

theorem cfgOfBundle_isSome : (cfgOfBundle b).isSome = bundleWf b := by
  cases h : bundleWf b <;> simp [cfgOfBundle, h]

/-- R31: an index below 16 keeps its value in the 4 bits of its register. -/
theorem cfgOfBundle_indices (h : cfgOfBundle b = some c) :
    c.throttleCh.toNat = b.throttleCh ∧ c.steeringCh.toNat = b.steeringCh := by
  have hwf : bundleWf b = true := by rw [← cfgOfBundle_isSome, h, Option.isSome_some]
  obtain ⟨hthrottle, hsteering, -⟩ := bundleWf_iff.mp hwf
  rw [cfgOfBundle, if_pos hwf] at h
  cases h
  exact ⟨Nat.mod_eq_of_lt hthrottle, Nat.mod_eq_of_lt hsteering⟩

end

/-- Settles O18: each of the operations asks for the configuration first, those of the control loop once the core is live. -/
theorem illFormedConfigurationRefused : Obligations.IllFormedConfigurationRefused := by
  refine ⟨fun s hc hs i hi => ?_, fun b => by rw [cfgOfBundle_isSome, bundleWf_iff], fun b c h => cfgOfBundle_indices h⟩
  rcases hi with rfl | rfl | rfl | ⟨raw, rfl⟩ | ⟨raw, flag, rfl⟩ | ⟨ch, rfl⟩
  · exact whenConfigured_illFormed hc
  · exact (whenLive_live hs).trans (whenConfigured_illFormed hc)
  · exact (whenLive_live hs).trans (whenConfigured_illFormed hc)
  · exact whenConfigured_illFormed hc
  · exact whenConfigured_illFormed hc
  · exact (whenLive_live hs).trans (whenConfigured_illFormed hc)

end Sys2Proof.Machine
end

section
/-! SUPPORT. A decode attempt under the full-delivery transport (spec 30_encoding.md R74; 41_frame_decoder.md R90 to R98, R102): the reads
come to what `decode` says of the stream, so an attempt is the decoder's answer run as an instruction. -/

namespace Sys2Proof.Machine

open Safety

/-! ### The reads and the decoder agree -/

/-- The reads of an attempt from `s` come to the decoder's answer: its frame class with the rest of the stream left, or the result code
of the step in which the stream ended, with the stream consumed. -/
def FetchAnswers (s : State) : Decoded → Prop
  | .instr i rest => ∃ f : FrameClass, i = f.instr ∧ fetch s = .ok (.frame f) (fetched i rest s)
  | .reject .noData => fetch s = .ok (.short .noData) (s.atRead .sync [] (s.env.reads.drop 1))
  | .reject .shortHeader => fetch s = .ok (.short .shortHeader) (s.atRead .header [] (s.env.reads.drop 2))
  | .reject .shortBody => fetch s = .ok (.short .shortBody) (s.atRead .body [] (s.env.reads.drop 3))

/-- R92: fewer than two bytes behind the sync byte. -/
theorem decode_shortHeader {rest : List Byte} (h : rest.length < 2) : decode (syncByte :: rest) = .reject .shortHeader := by
  match rest, h with
  | [], _ => rfl
  | [_], _ => rfl

section
variable {s : State} {more : List ReadAnswer} {rest : List Byte} {len ty : Byte}

theorem fetched_eq_atRead (i : Instr) (rest : List Byte) :
    fetched i rest s = s.atRead (phaseOf i) rest (s.env.reads.drop (readsOf i)) := rfl

theorem readsOf_classifyBody (body : List Byte) : readsOf (classifyBody body).instr = 3 := by
  rcases classifyBody_cases body with ⟨p, h⟩ | ⟨p, c, h⟩ <;> rw [h] <;> rfl

theorem phaseOf_classifyBody (body : List Byte) : phaseOf (classifyBody body).instr = .validate := by
  rcases classifyBody_cases body with ⟨p, h⟩ | ⟨p, c, h⟩ <;> rw [h] <;> rfl

variable (hf : NoInternalFault s) (hr : s.env.reads = fullDelivery ++ more)
include hf hr

/-- R94: the skip, which draws an answer only if it asks for a byte (D19, log entry 17). -/
theorem fetchAnswers_unknown (hrx : s.env.rx = syncByte :: len :: ty :: rest) (hty : ty ≠ rcType) :
    FetchAnswers s (.instr (.unknownType len ty (rest.take (skipCount len))) (rest.drop (skipCount len))) := by
  refine ⟨.unknownType len ty (rest.take (skipCount len)), rfl, ?_⟩
  rw [fetch_unknown hf (hr.trans (fullDelivery_append more)) hrx hty]
  rcases Nat.lt_or_ge 1 len.toNat with hlen | hlen
  · have hfits : skipCount len ≤ longestFrame := (Nat.sub_le _ _).trans (len.isLt.le.trans (by decide))
    have hreads : readsOf (.unknownType len ty (rest.take (skipCount len))) = 3 := if_neg hlen.not_ge
    rw [fetchSkip_delivered (noInternalFault_atRead hf) (skipCount_ne_zero hlen) rfl, State.atRead_rx, State.atRead_atRead,
      Nat.min_eq_left hfits, fetched_eq_atRead, hreads, hr]
    rfl
  · have hskip : skipCount len = 0 := Nat.sub_eq_zero_of_le hlen
    have hreads : readsOf (.unknownType len ty (rest.take (skipCount len))) = 2 := if_pos hlen
    rw [fetchSkip_empty (noInternalFault_atRead hf) hskip, fetched_eq_atRead, hreads, hr, hskip]
    rfl

/-- R96 to R98: the body behind a good header. -/
theorem fetchAnswers_rcHeader (hrx : s.env.rx = syncByte :: rcLength :: rcType :: rest) :
    FetchAnswers s (decodeHeader rcLength rcType rest) := by
  have hfetch := fetch_rcHeader hf (hr.trans (fullDelivery_append more)) hrx
  rcases Nat.lt_or_ge rest.length bodyCount with hshort | hwhole
  · have hall : rest.length ≤ longestFrame := hshort.le.trans (by decide)
    rw [fetchBody_short (noInternalFault_atRead hf) rfl (by exact (Nat.min_le_right _ _).trans_lt hshort), State.atRead_rx,
      List.drop_eq_nil_of_le hall] at hfetch
    rw [decodeHeader_short hshort, FetchAnswers, hfetch, hr]
    rfl
  · have hbody : (rest.take bodyCount).length = bodyCount := List.length_take_of_le hwhole
    rw [fetchBody_whole (noInternalFault_atRead hf) rfl (le_min (by decide) hwhole), State.atRead_rx, State.atRead_atRead] at hfetch
    rw [← List.take_append_drop bodyCount rest, decodeHeader_body _ _ hbody]
    refine ⟨classifyBody (rest.take bodyCount), rfl, ?_⟩
    rw [hfetch, fetched_eq_atRead, readsOf_classifyBody, phaseOf_classifyBody, hr]
    rfl

/-- R94, R95: behind a whole header, by the priorities of R68. -/
theorem fetchAnswers_header (hrx : s.env.rx = syncByte :: len :: ty :: rest) : FetchAnswers s (decodeHeader len ty rest) := by
  by_cases hty : ty = rcType
  swap
  · rw [decodeHeader_unknown hty]
    exact fetchAnswers_unknown hf hr hrx hty
  subst hty
  by_cases hlen : len = rcLength
  swap
  · rw [decodeHeader_badLength hlen]
    refine ⟨.rcBadLength len, rfl, ?_⟩
    rw [fetch_badLength hf (hr.trans (fullDelivery_append more)) hrx hlen, fetched_eq_atRead, hr]
    rfl
  subst hlen
  exact fetchAnswers_rcHeader hf hr hrx

/-- R92: the header read behind a sync byte. -/
theorem fetchAnswers_sync (hrx : s.env.rx = syncByte :: rest) : FetchAnswers s (decode (syncByte :: rest)) := by
  rcases Nat.lt_or_ge rest.length 2 with hshort | hwhole
  · have hfetch := fetch_sync (hr.trans (fullDelivery_append more)) hrx
    have hall : rest.length ≤ 255 + 2 := hshort.le.trans (by decide)
    rw [fetchHeader_short (noInternalFault_atRead hf) rfl (by exact (Nat.min_le_right _ _).trans_lt hshort), State.atRead_rx,
      List.drop_eq_nil_of_le hall] at hfetch
    rw [decode_shortHeader hshort, FetchAnswers, hfetch, hr]
    rfl
  · match rest, hwhole with
    | len :: ty :: rest, _ =>
      rw [decode_sync]
      exact fetchAnswers_header hf hr hrx

/-- R90: stage by stage the reads do what the decoder says of the stream they read. -/
theorem fetch_answers_decode : FetchAnswers s (decode s.env.rx) := by
  have hanswers := hr.trans (fullDelivery_append more)
  rcases hrx : s.env.rx with _ | ⟨b, rest⟩
  · rw [decode, FetchAnswers, fetch_noData hanswers (.inr hrx), hrx, hanswers]
    rfl
  by_cases hsync : b = syncByte
  swap
  · rw [decode_notSync hsync]
    refine ⟨.notSync b, rfl, ?_⟩
    rw [fetch_byte hanswers hrx, if_pos hsync, fetched_eq_atRead, hanswers]
    rfl
  subst hsync
  exact fetchAnswers_sync hf hr hrx

end

/-! ### An attempt is the decoded instruction -/

/-- A frame class's instruction is the class's effect. -/
theorem exec_frameClass (f : FrameClass) (s : State) : exec f.instr s = execFrame f s := by
  cases f <;> rfl

/-- Settles O23: what the reads come to is what the decoder answers, and the attempt records it. -/
theorem deliveredAttempts : Obligations.DeliveredAttempts := by
  rintro s hs ⟨more, hr⟩ hf
  have hanswers := fetch_answers_decode hf hr
  generalize decode s.env.rx = d at hanswers
  match d with
  | .instr i rest =>
    obtain ⟨f, rfl, hfetch⟩ := hanswers
    have heffect := (exec_frameClass f _).trans (execFrame_live (s := fetched f.instr rest s) hs f)
    exact (exec_tryReadFrame_of_fetch (t := fetched f.instr rest s) hs hf hfetch).trans heffect.symm
  | .reject .noData => exact exec_tryReadFrame_noFrame hs hf rfl hanswers
  | .reject .shortHeader => exact exec_tryReadFrame_noFrame hs hf rfl hanswers
  | .reject .shortBody => exact exec_tryReadFrame_noFrame hs hf rfl hanswers

/-- The attempt on a stream whose front decodes. -/
theorem exec_tryReadFrame_of_decode {s : State} {i : Instr} {rest : List Byte} (hs : s.halted = false) (hr : DeliversInFull s)
    (hf : NoInternalFault s) (h : decode s.env.rx = .instr i rest) : exec .tryReadFrame s = exec i (fetched i rest s) := by
  have hattempt := deliveredAttempts s hs hr hf
  rwa [h] at hattempt

/-- Settles O39: the attempt of the step's cycle is the decoded instruction, and the cycle completes. -/
theorem stepRunsTheDecodedFrame : Obligations.StepRunsTheDecodedFrame := by
  intro s i rest hs hc hterm hr hf hdecode _
  obtain ⟨u, r, hread, -, hret, -, hrun⟩ := cycleCompletes s hs hc hr hf
  exact ⟨u, r, (exec_tryReadFrame_of_decode hs hr hf hdecode).symm.trans hread, hret, hrun hterm⟩

/-! ### A validated frame with one bit flipped -/

/-- R84: a checksum byte behind the bytes it covers brings the checksum to 0. -/
theorem crc8_append_eq_zero_iff {bs : List Byte} {c : Byte} : crc8 (bs ++ [c]) = 0#8 ↔ crc8 bs = c := by
  have hlast : crc8 (bs ++ [c]) = crcTable (crc8 bs ^^^ c) := crcFrom_append 0#8 bs [c]
  rw [hlast, ← BitVec.xor_eq_zero_iff (x := crc8 bs)]
  exact ⟨crcTable_eq_zero _, fun h => by rw [h]; rfl⟩

/-- R97: a body whose checksum, over all of it behind the type byte, is not 0. -/
theorem classifyBody_of_crc8_ne_zero {body : List Byte} (h : body.length = 23) (hc : crc8 (rcType :: body) ≠ 0#8) :
    classifyBody body = .rcBadCrc (payloadOf body) (checksumOf body) := by
  refine if_neg fun hgood => hc ?_
  have hwhole := crc8_append_eq_zero_iff.mpr hgood
  rwa [coveredBytes, List.cons_append, payloadOf_toList_append body h] at hwhole

/-- R84, R97: a wrong bit in the payload or the checksum byte. -/
theorem classifyBody_flipBit (p : Payload) {k : Nat} (hk : k < 184) :
    ∃ q c, classifyBody (flipBit k (p.toList ++ [crc8 (coveredBytes p)])) = .rcBadCrc q c := by
  have hlength : (p.toList ++ [crc8 (coveredBytes p)]).length = 23 := by simp
  have hgood : crc8 (coveredBytes p ++ [crc8 (coveredBytes p)]) = 0#8 := crc8_append_eq_zero_iff.mpr rfl
  refine ⟨_, _, classifyBody_of_crc8_ne_zero ((flipBit_length _ _).trans hlength) ?_⟩
  rw [← hgood]
  exact crcFrom_flipBit_ne (by rw [hlength]; exact hk) _

theorem xor_bit_ne {k : Nat} (hk : k < 8) (b : Byte) : b ^^^ (1#8 <<< k) ≠ b :=
  fun h => bit_ne_zero hk (BitVec.xor_right_inj b |>.mp (h.trans (BitVec.xor_zero).symm))

/-- R102: the code of an attempt on a validated frame whose bit `k` is flipped, by the byte the bit lies in. -/
def flippedCode (k : Nat) : ResultCode :=
  if k < 8 then .notSync else if k < 16 then .badLength else if k < 24 then .unknownType else .badCrc

/-- R102: the class of a validated frame with one bit flipped. -/
theorem decode_flipBit {p : Payload} {f : List Byte} {k : Nat} (hp : encode (.rcChannels p) = some f) (hk : k < 208)
    (rest : List Byte) : ∃ (g : FrameClass) (left : List Byte), decode (flipBit k f ++ rest) = .instr g.instr left ∧
      (Attempt.frame g).result = none ∧ (Attempt.frame g).code = flippedCode k := by
  obtain rfl := Option.some.inj hp
  unfold flippedCode
  by_cases h0 : k < 8
  · rw [flipBit_cons_of_lt h0, List.cons_append, decode_notSync (xor_bit_ne h0 _), if_pos h0]
    exact ⟨.notSync _, _, rfl, rfl, rfl⟩
  rw [if_neg h0, flipBit_cons_of_ge (not_lt.mp h0)]
  by_cases h1 : k < 16
  · have hbit : k - 8 < 8 := by omega
    rw [flipBit_cons_of_lt hbit, if_pos h1, decode_sync_append, decodeHeader_badLength (xor_bit_ne hbit _)]
    exact ⟨.rcBadLength _, _, rfl, rfl, rfl⟩
  rw [if_neg h1, flipBit_cons_of_ge (by omega)]
  by_cases h2 : k < 24
  · have hbit : k - 8 - 8 < 8 := by omega
    rw [flipBit_cons_of_lt hbit, if_pos h2, decode_sync_append, decodeHeader_unknown (xor_bit_ne hbit _)]
    exact ⟨.unknownType _ _ _, _, rfl, rfl, rfl⟩
  obtain ⟨q, c, hclass⟩ := classifyBody_flipBit p (k := k - 8 - 8 - 8) (by omega)
  rw [if_neg h2, flipBit_cons_of_ge (by omega), decode_sync_append, decodeHeader_body _ _ (by simp), hclass]
  exact ⟨.rcBadCrc q c, _, rfl, rfl, rfl⟩

/-- Settles O28: the flipped frame decodes to a class that returns "no frame", under the code of the byte that was hit. -/
theorem singleBitMutationIsRejected : Obligations.SingleBitMutationIsRejected := by
  intro s p f rest k hs hr hf hp hk hrx
  obtain ⟨g, left, hdecode, hresult, hcode⟩ := decode_flipBit hp hk rest
  rw [← hrx] at hdecode
  have heffect := (exec_frameClass g _).trans (execFrame_live (s := fetched g.instr left s) hs g)
  refine ⟨_, (exec_tryReadFrame_of_decode hs hr hf hdecode).trans heffect, ?_⟩
  rw [Attempt.record_of_result_none hresult, hresult, hcode]
  exact ⟨rfl, rfl, rfl⟩

end Sys2Proof.Machine
end

section
/-! SUPPORT. A turn of the loop as a whole (spec 45_failsafe_supervisor.md R140, R141, R149): what every update of a cycle keeps holds where
the turn ends, and a turn ends between cycles or in shutdown. The machine's invariant is one such property. -/

namespace Sys2Proof.Machine

open Safety

/-! ### Gates in a halted core -/

section
variable {s : State}

theorem whenLive_halted {k : Host.Outcome State Fault Refusal} (h : s.halted = true) : whenLive s k = .fault .halted := if_pos h

/-- R27: the frame classes are the instructions that have an encoding. -/
theorem frameClass_of_encode {i : Instr} {e : List Byte} (h : encode i = some e) : ∃ f : FrameClass, i = f.instr := by
  cases i with
  | notSync b => exact ⟨.notSync b, rfl⟩
  | unknownType len ty skipped => exact ⟨.unknownType len ty skipped, rfl⟩
  | rcBadLength len => exact ⟨.rcBadLength len, rfl⟩
  | rcBadCrc p c => exact ⟨.rcBadCrc p c, rfl⟩
  | rcChannels p => exact ⟨.rcChannels p, rfl⟩
  | _ => cases h

end

/-- Settles O43: each of the operations asks first whether the core is live. -/
theorem haltedCoreIsStuck : Obligations.HaltedCoreIsStuck := by
  refine fun s hs => ⟨whenLive_halted hs, fun i hi => ?_⟩
  rcases hi with rfl | rfl | rfl | rfl | rfl | ⟨ch, rfl⟩ | ⟨e, he⟩
  pick_goal 7
  · obtain ⟨f, rfl⟩ := frameClass_of_encode he
    rw [exec_frameClass]
    exact whenLive_halted hs
  all_goals exact whenLive_halted hs

/-! ### One turn -/

section
variable {s : State}

theorem exec_run (hs : s.halted = false) (hc : s.cfg.inMin < s.cfg.inMax) : exec .run s = runTurn s := by
  rw [exec, execRun, whenLive_live hs, whenConfigured_wf (decide_eq_true hc)]

/-- R140: an asserted termination. -/
theorem runTurn_terminated (h : s.env.termIn = some 0) : runTurn s = .next (shutdown (afterTermSample s)) :=
  if_pos (beq_iff_eq.mpr h)

/-- R140: otherwise the turn is one cycle. -/
theorem runTurn_cycle (h : s.env.termIn ≠ some 0) : runTurn s = (cycle (afterTermSample s)).outcome fun _ => none :=
  if_neg (mt beq_iff_eq.mp h)

/-- R167: an asserted request stays asserted. -/
theorem afterTermSample_asserted (h : s.env.termIn = some 0) : afterTermSample s = s := by
  rw [afterTermSample, h, Option.map_some, Nat.zero_sub, ← h]
  rfl

/-- R140: a request still to come is one sample nearer. -/
theorem afterTermSample_later {k : Nat} (h : s.env.termIn = some (k + 1)) :
    afterTermSample s = { s with env := { s.env with termIn := some k } } := by
  rw [afterTermSample, h, Option.map_some, Nat.add_sub_cancel]
  rfl

end

/-- Settles O37: the sample decides, and it leaves the core as it was but for the count. (The name `runTurn` is the model's.) -/
theorem runTurn_outcomes : Obligations.RunTurn := by
  refine fun s hs hc => ⟨fun hnow => ?now, exec_run_of_termIn_none hs hc, fun k hlater => ?later⟩
  case now => rw [exec_run hs hc, runTurn_terminated hnow, afterTermSample_asserted hnow, shutdown_eq_shutdownEnd]
  case later =>
    have hne : s.env.termIn ≠ some 0 := by simp [hlater]
    rw [exec_run hs hc, runTurn_cycle hne, ← afterTermSample_later hlater, exec_cycle (s := afterTermSample s) hs hc]

/-! ### What a cycle keeps -/

/-- A property of states that every update a cycle is made of keeps. The motor commands of a cycle are `Split`s of values in
[-100, 100]. -/
structure KeptByCycle (P : State → Prop) : Prop where
  setEnv : ∀ s e, P s → P (s.setEnv e)
  setPhase : ∀ s p, P s → P (s.setPhase p)
  accept : ∀ s p, P s → P (accept p s)
  setLastResult : ∀ s c, c ≠ ResultCode.ok → P s → P (s.setLastResult c)
  setLastValid : ∀ s t, P s → P (s.setLastValid t)
  setMode : ∀ s m, P s → P (s.setMode m)
  command : ∀ s w v, -100 ≤ v → v ≤ 100 → P s → P (s.emit (.motor w (split v).speed (split v).dir))

/-- R141, R151: how a cycle ends that returns. -/
def CycleEnded (t : State) : Prop := t.phase = .between ∧ (t.mode = .failsafe → HeldStopped t.out)

section
variable {P : State → Prop} (hP : KeptByCycle P) {s t : State}
include hP

theorem KeptByCycle.readsOnly (h : ReadsOnly s t) (hs : P s) : P t := by
  obtain ⟨e, p, rfl, -⟩ := h
  exact hP.setPhase _ p (hP.setEnv s e hs)

/-- The rest of a cycle behind its attempt, which has written `CH` if it returned a ChannelSet. -/
theorem KeptByCycle.afterDecode {r : Option ChannelSet} (hs : P s) (hr : r ≠ none → s.ch ≠ none) :
    (afterDecode r s).All (fun _ t => P t ∧ CycleEnded t) P False :=
  afterDecode_all P r s hs hr hP.setEnv hP.setPhase (fun s t _ => hP.setLastValid s t) hP.setMode hP.command

theorem KeptByCycle.cycle (hs : P s) : (cycle s).All (fun _ t => P t ∧ CycleEnded t) P False := by
  unfold Machine.cycle
  refine Flow.All.bind ((injectionPoint_readsOnly s).mono (fun _ _ h => hP.readsOnly h hs) (fun _ h => hP.readsOnly h hs) id)
    fun _ t ht => ?_
  refine Flow.All.bind ((tryReadFrame_cases t).mono (fun _ _ h => h) (fun _ h => hP.readsOnly h ht) id) ?_
  rintro r _ ⟨u, hu, ⟨p, rfl, rfl⟩ | ⟨rfl, c, hc, rfl⟩⟩
  · exact hP.afterDecode (hP.accept u p (hP.readsOnly hu ht)) fun _ => Option.some_ne_none _
  · exact hP.afterDecode (hP.setLastResult u c hc (hP.readsOnly hu ht)) fun h => absurd rfl h

end

/-- R140, R149: a turn ends in shutdown from a state with the property, or as a cycle does that returns. -/
def TurnEnds (P : State → Prop) (x : Host.Outcome State Fault Refusal) : Prop :=
  ∃ u, P u ∧ (x = .next (shutdown u) ∨ x = .next (u.setRet none) ∧ CycleEnded u)

theorem Flow.All.turnEnds {P : State → Prop} {x : Flow Unit} (h : x.All (fun _ t => P t ∧ CycleEnded t) P False) :
    TurnEnds P (x.outcome fun _ => none) := by
  cases x with
  | ok a t =>
    obtain ⟨ht, hend⟩ := h
    exact ⟨t, ht, .inr ⟨rfl, hend⟩⟩
  | fatal c t => exact ⟨t, h, .inl rfl⟩
  | stop f => exact h.elim

theorem KeptByCycle.runTurn {P : State → Prop} (hP : KeptByCycle P) {s : State} (hs : P s) : TurnEnds P (runTurn s) := by
  have hsample : P (afterTermSample s) := hP.setEnv s _ hs
  by_cases hterm : s.env.termIn = some 0
  · rw [runTurn_terminated hterm]
    exact ⟨_, hsample, .inl rfl⟩
  · rw [runTurn_cycle hterm]
    exact (hP.cycle hsample).turnEnds

/-- R27: a cycle leaves a live core live, but for shutdown. -/
theorem live_keptByCycle : KeptByCycle fun s => s.halted = false where
  setEnv _ _ h := h
  setPhase _ _ h := h
  accept _ _ h := h
  setLastResult _ _ _ h := h
  setLastValid _ _ h := h
  setMode _ _ h := h
  command _ _ _ _ _ h := h

/-- Settles O38: no flow of a cycle stops the core, and a cycle that returns leaves it live. -/
theorem runAlwaysCompletes : Obligations.RunAlwaysCompletes := by
  intro s i hs hc hi
  have hends : TurnEnds (fun s => s.halted = false) (exec i s) := by
    rcases hi with rfl | rfl
    · rw [exec_run hs hc]
      exact live_keptByCycle.runTurn hs
    · rw [exec_cycle hs hc]
      exact (live_keptByCycle.cycle hs).turnEnds
  obtain ⟨u, hu, hx | ⟨hx, hphase, -⟩⟩ := hends
  · exact ⟨_, hx, rfl, .inr ⟨rfl, rfl⟩⟩
  · exact ⟨_, hx, rfl, .inl ⟨hu, hphase⟩⟩

/-! ### The machine's invariant -/

/-- R47, R133: the command of a mixer output is one the actuator port accepts. -/
theorem eventInRange_split (w : Side) {v : Rat} (hlo : -100 ≤ v) (hhi : v ≤ 100) :
    EventInRange (.motor w (split v).speed (split v).dir) := by
  have hspeed : 0 ≤ (split v).speed ∧ (split v).speed ≤ 100 := by
    rw [split_speed]
    exact ⟨abs_nonneg v, abs_le.mpr ⟨hlo, hhi⟩⟩
  refine and_assoc.mp ⟨hspeed, ?_⟩
  rcases lt_trichotomy v 0 with h | rfl | h
  · simp [split_of_neg h, h.ne]
  · simp
  · simp [split_of_pos h, h.ne']

theorem eventInRange_shutdownEvents : ∀ e ∈ shutdownEvents, EventInRange e := by
  simp [shutdownEvents, allStopEvents, EventInRange]

/-- What of the invariant holds inside a turn of a live core: it speaks neither of the phase nor, until the check, of FAILSAFE. -/
structure InTurn (s : State) : Prop where
  events : ∀ e ∈ s.out, EventInRange e
  live : s.halted = false
  unreleased : Event.release ∉ s.out
  written : s.lastResult = some .ok → s.ch ≠ none

theorem InTurn.emit_motor {s : State} (h : InTurn s) {w : Side} {v : Rat} {d : Dir} (he : EventInRange (.motor w v d)) :
    InTurn (s.emit (.motor w v d)) where
  events := List.forall_mem_append.mpr ⟨h.events, List.forall_mem_singleton.mpr he⟩
  live := h.live
  unreleased := by simpa using h.unreleased
  written := h.written

theorem inTurn_keptByCycle : KeptByCycle InTurn where
  setEnv _ _ h := { h with }
  setPhase _ _ h := { h with }
  accept _ _ h := { h with written := fun _ => Option.some_ne_none _ }
  setLastResult _ _ hc h := { h with written := fun heq => absurd (Option.some.inj heq) hc }
  setLastValid _ _ h := { h with }
  setMode _ _ h := { h with }
  command _ w _ hlo hhi h := h.emit_motor (eventInRange_split w hlo hhi)

section
variable {s : State}

/-- A turn starts in a live core that meets the invariant. -/
theorem inTurn_of_inv (h : Inv s) (hs : s.halted = false) : InTurn s := by
  obtain ⟨hlive, -⟩ := h.cleanup
  obtain ⟨hunreleased, -⟩ := hlive hs
  exact ⟨h.events, hs, hunreleased, h.written⟩

/-- R148: the cleanup stands at the end of the history, and holds both motors stopped. -/
theorem InTurn.inv_shutdown (h : InTurn s) : Inv (shutdown s) where
  events := by
    rw [shutdown_out]
    exact List.forall_mem_append.mpr ⟨h.events, eventInRange_shutdownEvents⟩
  cleanup := ⟨nofun, fun _ => ⟨rfl, s.out, shutdown_out s, h.unreleased⟩⟩
  failsafe _ := by simp [HeldStopped]
  written := h.written
  transient := rfl

theorem InTurn.inv_of_cycleEnded (h : InTurn s) (hend : CycleEnded s) : Inv (s.setRet none) where
  events := h.events
  cleanup := ⟨fun _ => ⟨h.unreleased, hend.1⟩, fun hhalted => absurd (h.live.symm.trans hhalted) Bool.false_ne_true⟩
  failsafe := hend.2
  written := h.written
  transient := rfl

end

/-- Settles O34: `State.reset` and its configuration written out. -/
theorem resetValues : Obligations.ResetValues :=
  ⟨rfl, rfl, rfl, rfl, rfl, rfl, rfl, rfl, rfl, rfl, rfl⟩

/-- Settles O48: the history is empty and nothing has been recorded. -/
theorem invariantAtReset : Obligations.InvariantAtReset where
  events := List.forall_mem_nil _
  cleanup := ⟨fun _ => ⟨List.not_mem_nil, rfl⟩, nofun⟩
  failsafe h := by cases h
  written h := by cases h
  transient := rfl

/-- Settles O49: a step starts in a live core, and each of the two ends of its turn meets the invariant. -/
theorem invariantKeptByEveryStep : Obligations.InvariantKeptByEveryStep := by
  intro s t hinv hstep
  obtain ⟨hs, hstep⟩ := whenLive_eq_next hstep
  obtain ⟨-, hstep⟩ := whenConfigured_eq_next hstep
  obtain ⟨u, hu, hx | ⟨hx, hend⟩⟩ := inTurn_keptByCycle.runTurn (inTurn_of_inv hinv hs)
  · cases hstep.symm.trans hx
    exact hu.inv_shutdown
  · cases hstep.symm.trans hx
    exact hu.inv_of_cycleEnded hend

end Sys2Proof.Machine
end
